-- ==== Sys2Proof/Word.lean ====
section
/-! DEFINITION. The plainest data of the block: a byte, a register number, an immediate, and the two
readings of a pattern (00_scope.md R6 to R9). Helpers a test could prove wrong stand in `Decode.lean` and
under `Machine/`. -/

namespace Sys2Proof

/-- A byte of code, of a program image or of data memory. -/
abbrev Byte := BitVec 8

/-- A register number: 13 registers, `r0` to `r12` (10_state.md R20). Every decoded index is clamped into this
range (R23), so no instruction holds another. -/
abbrev Reg := Fin 13

/-- A normal immediate: a 32-bit pattern whatever the register width (00_scope.md R5, 90_conflicts.md C2). -/
abbrev Imm := BitVec 32

/-- `wrap_N(z)`: `z` modulo `2^N`, never negative (00_scope.md R7). -/
def wrap (N : Nat) (z : Int) : Nat := (z % ((2 ^ N : Nat) : Int)).toNat

/-- `s_N(v)`: the two's-complement reading of the `N`-bit pattern whose unsigned reading is `v`
(00_scope.md R7). -/
def sView (N v : Nat) : Int := if v.testBit (N - 1) then (v : Int) - ((2 ^ N : Nat) : Int) else (v : Int)

end Sys2Proof
end

