-- ==== Sys2Proof/Config.lean ====
section
/-! DEFINITION. What an implementation of the block fixes: the parameters of 00_scope.md R5 as plain data, and
the free functions that stand for what the spec leaves to the implementation or the host. A free function
has no body: nothing can be proved of its values. -/

namespace Sys2Proof

/-- The 13 argument shapes (30_encoding.md section 4). -/
inductive Shape where
  | noArguments
  | oneImmediate
  | twoImmediates
  | oneOffset
  | oneRegisterOneImmediate
  | oneRegisterTwoImmediates
  | oneRegisterOneImmediateOneOffset
  | oneRegisterOneExtendedWidthImmediate
  | twoRegisters
  | twoRegistersOneImmediate
  | twoRegistersOneOffset
  | twoRegistersTwoImmediates
  | threeRegisters
  deriving DecidableEq, Repr

/-- The 25 mnemonics in scope (00_scope.md R2), in the opcode table's order. -/
inductive Op where
  | trap | ecalli
  | shlImm | shrImm | sarImm | negAddImm | shlImmAlt | shrImmAlt | sarImmAlt
  | add | sub | mul | divU | divS | remU | remS
  | shl | shr | sar | and | xor | or
  | mulUpperSS | mulUpperUU | mulUpperSU
  deriving DecidableEq, Repr

/-- `OPCODE_MAP`, a parameter (30_encoding.md R107): which byte stands for which mnemonic. A byte that is not
listed is unmapped. The shape goes with the mnemonic, whatever the map. -/
abbrev OpcodeMap := List (Byte × Op)

/-- A gas cost: a number, or a function of the registers (40_control.md R120, 60_exceptions.md R209). -/
inductive Cost where
  /-- A static cost. -/
  | constant (amount : Nat)
  /-- A register-dependent cost: the free functions `Config.gasCost` and `Config.hostCost` give it. -/
  | ofRegisters
  deriving DecidableEq, Repr

/-- `GAS_COST`, a parameter (00_scope.md R5): the costs of the listed mnemonics and the cost of every other. -/
structure GasTable where
  listed : List (Op × Cost)
  others : Cost
  deriving DecidableEq, Repr

/-- `VARINT`, a parameter (30_encoding.md R71). -/
inductive VarintCodec where
  /-- The reference decoder of R71. -/
  | reference
  /-- Any other codec: the free function `Config.otherVarint`. -/
  | other
  deriving DecidableEq, Repr

/-- One entry of `HOST_REGISTRY`: the index a host call is known by and what it costs (60_exceptions.md R209).
What its handler computes is the host's (00_scope.md R4). -/
structure HostDescriptor where
  index : BitVec 32
  cost  : Cost
  deriving DecidableEq, Repr

/-- The parameters of 00_scope.md R5 that a running instance still reads. The register width `W` is carried by the
register file itself. -/
structure Params where
  opcodeMap   : OpcodeMap
  gasCost     : GasTable
  haltRetRegs : Reg × Reg
  registry    : List HostDescriptor
  deriving DecidableEq, Repr

/-- FREE: the register-dependent gas cost of an instruction, from its mnemonic, the register width and the unsigned
register values in index order (00_scope.md R5 `GAS_COST`; log entry 8). -/
opaque Config.gasCost : Op → Nat → List Nat → Nat

/-- FREE: the register-dependent gas cost of a host call, from its index, the register width and the unsigned
register values in index order (60_exceptions.md R209; log entry 11). -/
opaque Config.hostCost : BitVec 32 → Nat → List Nat → Nat

/-- FREE: a varint decoder other than the reference one: the value and the bytes after it, or nothing where the
bytes end too early (30_encoding.md R71; log entry 9). -/
opaque Config.otherVarint : List Byte → Option (Nat × List Byte)

end Sys2Proof
end

