-- ==== Sys2Proof/Syntax.lean ====
section
/-! DEFINITION. The instructions: one constructor per row of spec/opcode_table.json, with the operands its rule
names in the spec's own order, destination first (30_encoding.md R111, 41_arithmetic.md R140). -/

namespace Sys2Proof

/-- An instruction in scope (00_scope.md R2). Register operands are already clamped (30_encoding.md R84) and immediates
already assembled (R86), so every term is a well-formed instruction. -/
inductive Instr where
  /-- TRAP (R127). -/
  | trap
  /-- ECALLI (R129): suspend with host-call index `imm.u`. -/
  | ecalli (imm : Imm)
  /-- SHL_IMM (R181): value `rS`, amount `imm`. -/
  | shlImm (rD rS : Reg) (imm : Imm)
  /-- SHR_IMM (R182). -/
  | shrImm (rD rS : Reg) (imm : Imm)
  /-- SAR_IMM (R183). -/
  | sarImm (rD rS : Reg) (imm : Imm)
  /-- NEG_ADD_IMM (R145): `imm - rS`. -/
  | negAddImm (rD rS : Reg) (imm : Imm)
  /-- SHL_IMM_ALT (R184): value `imm`, amount `rS`. -/
  | shlImmAlt (rD rS : Reg) (imm : Imm)
  /-- SHR_IMM_ALT (R185). -/
  | shrImmAlt (rD rS : Reg) (imm : Imm)
  /-- SAR_IMM_ALT (R186). -/
  | sarImmAlt (rD rS : Reg) (imm : Imm)
  /-- ADD (R143): `rD <- rA + rB`. -/
  | add (rD rA rB : Reg)
  /-- SUB (R144). -/
  | sub (rD rA rB : Reg)
  /-- MUL (R146). -/
  | mul (rD rA rB : Reg)
  /-- DIV_U (R150): dividend `rA`, divisor `rB`. -/
  | divU (rD rA rB : Reg)
  /-- DIV_S (R151). -/
  | divS (rD rA rB : Reg)
  /-- REM_U (R152). -/
  | remU (rD rA rB : Reg)
  /-- REM_S (R153). -/
  | remS (rD rA rB : Reg)
  /-- SHL (R178): value `rA`, amount `rB`. -/
  | shl (rD rA rB : Reg)
  /-- SHR (R179). -/
  | shr (rD rA rB : Reg)
  /-- SAR (R180). -/
  | sar (rD rA rB : Reg)
  /-- AND (R174). -/
  | and (rD rA rB : Reg)
  /-- XOR (R176). -/
  | xor (rD rA rB : Reg)
  /-- OR (R175). -/
  | or (rD rA rB : Reg)
  /-- MUL_UPPER_SS (R148). -/
  | mulUpperSS (rD rA rB : Reg)
  /-- MUL_UPPER_UU (R147). -/
  | mulUpperUU (rD rA rB : Reg)
  /-- MUL_UPPER_SU (R149): `rA` signed, `rB` unsigned. -/
  | mulUpperSU (rD rA rB : Reg)
  deriving DecidableEq, Repr

end Sys2Proof
end

