-- ==== Sys2Proof/WellFormed.lean ====
section
/-! DEFINITION. The decoded program and the checks on the data that a type does not settle by itself: a program's mask
against its code, and an opcode map. An instruction needs no check: its registers are `Fin 13` and its immediate is
`BitVec 32`, so every term of `Instr` is well-formed (30_encoding.md R84, R86). -/

namespace Sys2Proof

/-- The immutable program (10_state.md R34): code bytes, one mask bit per code index, and the jump table. -/
structure Program where
  code      : List Byte
  mask      : List Bool
  jumpTable : List (BitVec 32)
  deriving DecidableEq, Repr

/-- The mask has one bit per code index (10_state.md R34), and the code is shorter than `2^32` bytes
(20_memory.md R51). -/
abbrev Program.WellFormed (p : Program) : Prop :=
  p.mask.length = p.code.length ∧ p.code.length < 2 ^ 32

/-- Each opcode byte maps to exactly one mnemonic (30_encoding.md R81): no byte is listed twice. -/
abbrev OpcodeMap.WellFormed (m : OpcodeMap) : Prop := (m.map Prod.fst).Nodup

end Sys2Proof
end

