-- ==== Sys2Proof/Decode.lean ====
section
/-! DEFINITION. The decoder in the spec's own order (30_encoding.md): numeric decoders, the mask, fetch and opcode map,
the 13 argument shapes, the instruction; then the encoder; then the program image with its DecodeFault; last the two
views the host asks for. Decoding an instruction is total and never fails (R113); decoding an image rejects by name. -/

namespace Sys2Proof

/-! ## Numeric decoders (R83 to R90) -/

/-- The low nibble of a byte (R83). -/
def lo4 (b : Byte) : Nat := b.toNat % 16

/-- The high nibble of a byte (R83). -/
def hi4 (b : Byte) : Nat := b.toNat / 16

/-- Register-index extraction (R84): 13, 14 and 15 all give register 12. -/
def clampR (n : Nat) : Reg := ⟨min n 12, by omega⟩

/-- Length extraction (R85): 4 to 15 all give 4. -/
def clampL (n : Nat) : Nat := min n 4

/-- `LE(bytes)` (00_scope.md R8, 30_encoding.md R90): the first byte is the least significant. -/
def littleEndian : List Byte → Nat
  | [] => 0
  | b :: rest => b.toNat + 256 * littleEndian rest

/-- The `n` low bytes of a number, least significant first (20_memory.md R52). -/
def bytesOf : (n : Nat) → (v : Nat) → List Byte
  | 0, _ => []
  | n + 1, v => BitVec.ofNat 8 v :: bytesOf n (v / 256)

/-- The padding of a short immediate: ones where the last supplied byte has its top bit set (R86). -/
def padByte (bytes : List Byte) : Byte :=
  if 0x80 ≤ (bytes.getLastD 0).toNat then 0xFF else 0x00

/-- The immediate decoder `Imm32` (R86), for at most 4 bytes: sign extension from the last supplied byte. -/
def imm32 (bytes : List Byte) : Imm :=
  BitVec.ofNat 32 (littleEndian (bytes ++ List.replicate (4 - bytes.length) (padByte bytes)))

/-- The extended-width immediate decoder `Imm64` (R89), for at most 8 bytes: zero padding. -/
def imm64 (bytes : List Byte) : BitVec 64 := BitVec.ofNat 64 (littleEndian bytes)

/-- Re-serialization of an immediate, always 4 bytes (R88). -/
def bytesLE (v : Imm) : List Byte := bytesOf 4 v.toNat

/-! ## The mask and instruction length (R75 to R79, 10_state.md R36) -/

/-- `start(i)` (R77): a code index the mask marks. -/
def Program.isStart (p : Program) (i : Nat) : Bool :=
  decide (i < p.code.length) && p.mask.getD i false

/-- The distance from `i` to the first instruction start at or after it, at most `steps`. -/
def Program.scanForward (p : Program) : (steps i : Nat) → Nat
  | 0, _ => 0
  | steps + 1, i => if p.isStart i then 0 else p.scanForward steps (i + 1) + 1

/-- `forward(i)` (R75) for `i ≤ L`, with a virtual start at `L`. -/
def Program.forward (p : Program) (i : Nat) : Nat := p.scanForward (p.code.length - i) i

/-- `backward(i)` (R76) for `i < L`: nothing where no index `≤ i` is an instruction start. -/
def Program.backward (p : Program) : Nat → Option Nat
  | 0 => if p.isStart 0 then some 0 else none
  | i + 1 => if p.isStart (i + 1) then some 0 else (p.backward i).map (· + 1)

/-- `getNoOfBytesToNextInstruction(i)` (10_state.md R36): refused outside `0 ≤ i ≤ L`. -/
def Program.bytesToNext (p : Program) (i : Nat) : Option Nat :=
  if i ≤ p.code.length then some (p.forward i) else none

/-- `getNoOfBytesToPreviousInstruction(i)` (10_state.md R36): refused outside `0 ≤ i < L`. -/
def Program.bytesToPrevious (p : Program) (i : Nat) : Option Nat :=
  if i < p.code.length then p.backward i else none

/-- `hasIndex(k)` of the jump table (10_state.md R37). -/
def Program.hasIndex (p : Program) (k : Nat) : Bool := decide (k < p.jumpTable.length)

/-- `getDestination(k)` of the jump table (10_state.md R37): nothing where `hasIndex(k)` fails. -/
def Program.destination (p : Program) (k : Nat) : Option (BitVec 32) := p.jumpTable[k]?

/-- `skip(pc)`, the instruction length with its opcode byte (R78). -/
def Program.skip (p : Program) (pc : Nat) : Nat :=
  if pc < p.code.length then 1 + p.forward (pc + 1) else 1

/-- `ℓ`, the operand bytes of the instruction at `pc` (R79). -/
def Program.operandCount (p : Program) (pc : Nat) : Nat := p.skip pc - 1

/-- `cb(i)` (R82): a code byte, 0 past the end of code. -/
def Program.codeByte (p : Program) (i : Nat) : Byte := p.code.getD i 0

/-- `take(i, n)` (R91): the code bytes from `i`, cut at the end of code. -/
def Program.slice (p : Program) (i n : Nat) : List Byte := (p.code.drop i).take n

/-! ## Fetch and the opcode map (R80, R81, R107) -/

/-- The shape of each mnemonic, whatever the opcode map (R107). -/
def Op.shape : Op → Shape
  | .trap => .noArguments
  | .ecalli => .oneImmediate
  | .shlImm | .shrImm | .sarImm | .negAddImm | .shlImmAlt | .shrImmAlt | .sarImmAlt => .twoRegistersOneImmediate
  | .add | .sub | .mul | .divU | .divS | .remU | .remS | .shl | .shr | .sar | .and | .xor | .or
  | .mulUpperSS | .mulUpperUU | .mulUpperSU => .threeRegisters

/-- The reference opcode map (R107). -/
def referenceMap : OpcodeMap :=
  [(0x00, .trap), (0x0A, .ecalli), (0x97, .shlImm), (0x98, .shrImm), (0x99, .sarImm), (0x9A, .negAddImm),
   (0x9B, .shlImmAlt), (0x9C, .shrImmAlt), (0x9D, .sarImmAlt)] ++
  [(0xC8, .add), (0xC9, .sub), (0xCA, .mul), (0xCB, .divU), (0xCC, .divS), (0xCD, .remU), (0xCE, .remS),
   (0xCF, .shl), (0xD0, .shr), (0xD1, .sar), (0xD2, .and), (0xD3, .xor), (0xD4, .or),
   (0xD5, .mulUpperSS), (0xD6, .mulUpperUU), (0xD7, .mulUpperSU)]

/-- `OPCODE_MAP(b)` (R80, R81): an unmapped byte is TRAP. -/
def OpcodeMap.opOf (m : OpcodeMap) (b : Byte) : Op := (m.lookup b).getD .trap

/-- The byte that stands for a mnemonic, where the map names it. DESIGN CHOICE: a map may give one mnemonic several bytes,
and the spec does not say which of them an encoder writes; this is the first listed (log entry 31). -/
def OpcodeMap.byteOf (m : OpcodeMap) (op : Op) : Option Byte :=
  (m.find? fun entry => entry.2 == op).map Prod.fst

/-- `fetch(pc)` (R80): TRAP where `pc` is outside the code or not an instruction start. -/
def fetch (m : OpcodeMap) (p : Program) (pc : Nat) : Op :=
  if p.isStart pc then m.opOf (p.codeByte pc) else .trap

/-! ## The 13 shapes (R92 to R106) -/

/-- The decoded fields of each shape (R92 to R104). -/
inductive Args : Shape → Type where
  | noArguments : Args .noArguments
  | oneImmediate (imm : Imm) : Args .oneImmediate
  | twoImmediates (imm1 imm2 : Imm) : Args .twoImmediates
  | oneOffset (offset : Imm) (target : BitVec 32) : Args .oneOffset
  | oneRegisterOneImmediate (reg : Reg) (imm : Imm) : Args .oneRegisterOneImmediate
  | oneRegisterTwoImmediates (reg : Reg) (imm1 imm2 : Imm) : Args .oneRegisterTwoImmediates
  | oneRegisterOneImmediateOneOffset (reg : Reg) (imm offset : Imm) (target : BitVec 32) :
      Args .oneRegisterOneImmediateOneOffset
  | oneRegisterOneExtendedWidthImmediate (reg : Reg) (immExt : BitVec 64) :
      Args .oneRegisterOneExtendedWidthImmediate
  | twoRegisters (first second : Reg) : Args .twoRegisters
  | twoRegistersOneImmediate (first second : Reg) (imm : Imm) : Args .twoRegistersOneImmediate
  | twoRegistersOneOffset (first second : Reg) (offset : Imm) (target : BitVec 32) : Args .twoRegistersOneOffset
  | twoRegistersTwoImmediates (first second : Reg) (imm1 imm2 : Imm) : Args .twoRegistersTwoImmediates
  | threeRegisters (first second third : Reg) : Args .threeRegisters
  deriving DecidableEq, Repr

/-- The byte after the opcode, `b1`. -/
def Program.b1 (p : Program) (pc : Nat) : Byte := p.codeByte (pc + 1)

/-- The second byte after the opcode, `b2`. -/
def Program.b2 (p : Program) (pc : Nat) : Byte := p.codeByte (pc + 2)

/-- The register in a byte's low nibble. -/
def regLo (b : Byte) : Reg := clampR (lo4 b)

/-- The register in a byte's high nibble. -/
def regHi (b : Byte) : Reg := clampR (hi4 b)

/-- A length-prefixed immediate of `n` bytes from code index `i` (R91: not cut at the instruction boundary). -/
def Program.immAt (p : Program) (i n : Nat) : Imm := imm32 (p.slice i n)

/-- A boundary-delimited immediate that starts `before` operand bytes into the instruction: all the operand bytes that
are left, at most 4 (R93 to R104). -/
def Program.immRest (p : Program) (pc before : Nat) : Imm :=
  p.immAt (pc + 1 + before) (min 4 (p.operandCount pc - before))

/-- The target of an offset (R105), from the address of the instruction's own opcode byte. -/
def offsetTarget (pc : Nat) (offset : Imm) : BitVec 32 := BitVec.ofInt 32 ((pc : Int) + offset.toInt)

/-- The fields of the instruction at `pc` under each shape (R92 to R104). -/
def decodeArgs (p : Program) (pc : Nat) : (sh : Shape) → Args sh
  | .noArguments => .noArguments
  | .oneImmediate => .oneImmediate (p.immRest pc 0)
  | .twoImmediates =>
    let n := clampL (lo4 (p.b1 pc))
    .twoImmediates (p.immAt (pc + 2) n) (p.immRest pc (1 + n))
  | .oneOffset =>
    let offset := p.immRest pc 0
    .oneOffset offset (offsetTarget pc offset)
  | .oneRegisterOneImmediate => .oneRegisterOneImmediate (regLo (p.b1 pc)) (p.immRest pc 1)
  | .oneRegisterTwoImmediates =>
    let n := clampL (hi4 (p.b1 pc))
    .oneRegisterTwoImmediates (regLo (p.b1 pc)) (p.immAt (pc + 2) n) (p.immRest pc (1 + n))
  | .oneRegisterOneImmediateOneOffset =>
    let n := clampL (hi4 (p.b1 pc))
    let offset := p.immRest pc (1 + n)
    .oneRegisterOneImmediateOneOffset (regLo (p.b1 pc)) (p.immAt (pc + 2) n) offset (offsetTarget pc offset)
  | .oneRegisterOneExtendedWidthImmediate =>
    .oneRegisterOneExtendedWidthImmediate (regLo (p.b1 pc)) (imm64 (p.slice (pc + 2) (min 8 (p.operandCount pc - 1))))
  | .twoRegisters => .twoRegisters (regHi (p.b1 pc)) (regLo (p.b1 pc))
  | .twoRegistersOneImmediate =>
    .twoRegistersOneImmediate (regHi (p.b1 pc)) (regLo (p.b1 pc)) (p.immRest pc 1)
  | .twoRegistersOneOffset =>
    let offset := p.immRest pc 1
    .twoRegistersOneOffset (regHi (p.b1 pc)) (regLo (p.b1 pc)) offset (offsetTarget pc offset)
  | .twoRegistersTwoImmediates =>
    let n := clampL (lo4 (p.b2 pc))
    .twoRegistersTwoImmediates (regHi (p.b1 pc)) (regLo (p.b1 pc)) (p.immAt (pc + 3) n) (p.immRest pc (2 + n))
  | .threeRegisters => .threeRegisters (regHi (p.b1 pc)) (regLo (p.b1 pc)) (regLo (p.b2 pc))

/-- The instruction a mnemonic makes of its fields, with the operand roles of 41_arithmetic.md R140: `third` or
`second` is the destination, `second` the left operand, `first` the right operand or the register source. -/
def Op.instr : (op : Op) → Args op.shape → Instr
  | .trap, .noArguments => .trap
  | .ecalli, .oneImmediate imm => .ecalli imm
  | .shlImm, .twoRegistersOneImmediate first second imm => .shlImm second first imm
  | .shrImm, .twoRegistersOneImmediate first second imm => .shrImm second first imm
  | .sarImm, .twoRegistersOneImmediate first second imm => .sarImm second first imm
  | .negAddImm, .twoRegistersOneImmediate first second imm => .negAddImm second first imm
  | .shlImmAlt, .twoRegistersOneImmediate first second imm => .shlImmAlt second first imm
  | .shrImmAlt, .twoRegistersOneImmediate first second imm => .shrImmAlt second first imm
  | .sarImmAlt, .twoRegistersOneImmediate first second imm => .sarImmAlt second first imm
  | .add, .threeRegisters first second third => .add third second first
  | .sub, .threeRegisters first second third => .sub third second first
  | .mul, .threeRegisters first second third => .mul third second first
  | .divU, .threeRegisters first second third => .divU third second first
  | .divS, .threeRegisters first second third => .divS third second first
  | .remU, .threeRegisters first second third => .remU third second first
  | .remS, .threeRegisters first second third => .remS third second first
  | .shl, .threeRegisters first second third => .shl third second first
  | .shr, .threeRegisters first second third => .shr third second first
  | .sar, .threeRegisters first second third => .sar third second first
  | .and, .threeRegisters first second third => .and third second first
  | .xor, .threeRegisters first second third => .xor third second first
  | .or, .threeRegisters first second third => .or third second first
  | .mulUpperSS, .threeRegisters first second third => .mulUpperSS third second first
  | .mulUpperUU, .threeRegisters first second third => .mulUpperUU third second first
  | .mulUpperSU, .threeRegisters first second third => .mulUpperSU third second first

/-- The decode result (R106): the mnemonic, its fields, and `noOfBytesToSkip`. -/
structure Decoded where
  op   : Op
  args : Args op.shape
  skip : Nat

/-- The decoded instruction, mnemonic and operands together. -/
def Decoded.instr (d : Decoded) : Instr := d.op.instr d.args

/-- `decode(pc)` (R106), total and pure (R113). -/
def decode (m : OpcodeMap) (p : Program) (pc : Nat) : Decoded :=
  let op := fetch m p pc
  { op := op, args := decodeArgs p pc op.shape, skip := p.skip pc }

/-! ## The encoder (R111) -/

/-- The mnemonic of an instruction. -/
def Instr.op : Instr → Op
  | .trap => .trap
  | .ecalli _ => .ecalli
  | .shlImm _ _ _ => .shlImm
  | .shrImm _ _ _ => .shrImm
  | .sarImm _ _ _ => .sarImm
  | .negAddImm _ _ _ => .negAddImm
  | .shlImmAlt _ _ _ => .shlImmAlt
  | .shrImmAlt _ _ _ => .shrImmAlt
  | .sarImmAlt _ _ _ => .sarImmAlt
  | .add _ _ _ => .add
  | .sub _ _ _ => .sub
  | .mul _ _ _ => .mul
  | .divU _ _ _ => .divU
  | .divS _ _ _ => .divS
  | .remU _ _ _ => .remU
  | .remS _ _ _ => .remS
  | .shl _ _ _ => .shl
  | .shr _ _ _ => .shr
  | .sar _ _ _ => .sar
  | .and _ _ _ => .and
  | .xor _ _ _ => .xor
  | .or _ _ _ => .or
  | .mulUpperSS _ _ _ => .mulUpperSS
  | .mulUpperUU _ _ _ => .mulUpperUU
  | .mulUpperSU _ _ _ => .mulUpperSU

/-- `immBytes(k)` (R111): the shortest byte string that the immediate decoder reads as `k`. -/
def immBytes (k : Imm) : List Byte :=
  (bytesLE k).take (((List.range 5).find? fun n => imm32 ((bytesLE k).take n) == k).getD 4)

/-- Two nibbles as one byte, `16·high + low`. -/
def nibbles (high low : Reg) : Byte := BitVec.ofNat 8 (16 * high.val + low.val)

/-- The operand bytes of `rD, rA, rB` (R111): `[16·rB + rA, rD]`. -/
def encodeThree (rD rA rB : Reg) : List Byte := [nibbles rB rA, BitVec.ofNat 8 rD.val]

/-- The operand bytes of `rD, rS, imm` (R111): `[16·rS + rD] ++ immBytes(imm)`. -/
def encodeTwoImm (rD rS : Reg) (imm : Imm) : List Byte := nibbles rS rD :: immBytes imm

/-- The operand bytes of an instruction (R111). -/
def Instr.operandBytes : Instr → List Byte
  | .trap => []
  | .ecalli imm => immBytes imm
  | .shlImm rD rS imm => encodeTwoImm rD rS imm
  | .shrImm rD rS imm => encodeTwoImm rD rS imm
  | .sarImm rD rS imm => encodeTwoImm rD rS imm
  | .negAddImm rD rS imm => encodeTwoImm rD rS imm
  | .shlImmAlt rD rS imm => encodeTwoImm rD rS imm
  | .shrImmAlt rD rS imm => encodeTwoImm rD rS imm
  | .sarImmAlt rD rS imm => encodeTwoImm rD rS imm
  | .add rD rA rB => encodeThree rD rA rB
  | .sub rD rA rB => encodeThree rD rA rB
  | .mul rD rA rB => encodeThree rD rA rB
  | .divU rD rA rB => encodeThree rD rA rB
  | .divS rD rA rB => encodeThree rD rA rB
  | .remU rD rA rB => encodeThree rD rA rB
  | .remS rD rA rB => encodeThree rD rA rB
  | .shl rD rA rB => encodeThree rD rA rB
  | .shr rD rA rB => encodeThree rD rA rB
  | .sar rD rA rB => encodeThree rD rA rB
  | .and rD rA rB => encodeThree rD rA rB
  | .xor rD rA rB => encodeThree rD rA rB
  | .or rD rA rB => encodeThree rD rA rB
  | .mulUpperSS rD rA rB => encodeThree rD rA rB
  | .mulUpperUU rD rA rB => encodeThree rD rA rB
  | .mulUpperSU rD rA rB => encodeThree rD rA rB

/-- The bytes of an instruction under an opcode map (R111): nothing where the map does not name its mnemonic. Which `op`
is written for a mnemonic with several bytes is the model's choice (log entry 31). -/
def encodeWith (m : OpcodeMap) (i : Instr) : Option (List Byte) :=
  (m.byteOf i.op).map fun b => b :: i.operandBytes

/-- The bytes of an instruction under the reference opcode map. -/
def encode (i : Instr) : List Byte := (encodeWith referenceMap i).getD []

/-- These bytes stand at code index `pc` as one instruction: the mask marks the first byte and none of the others, and
the instruction ends at the next start or at the end of code (R110). -/
def Program.Holds (p : Program) (pc : Nat) (bytes : List Byte) : Prop :=
  p.slice pc bytes.length = bytes ∧ p.isStart pc = true ∧
  (∀ k, 0 < k → k < bytes.length → p.isStart (pc + k) = false) ∧
  (pc + bytes.length = p.code.length ∨ p.isStart (pc + bytes.length) = true)

/-! ## The program image (R70 to R74) -/

/-- Why an image is refused at load (R74, 60_exceptions.md R202); no instance exists for such an image (safe). -/
inductive DecodeFault where
  /-- The image ends inside a varint or before the width byte. -/
  | truncatedHeader
  /-- The image is shorter than its header and sections. -/
  | truncatedSections
  /-- The jump-table item width is above 4. -/
  | itemWidth
  /-- The code length is `2^32` or more. -/
  | codeLength
  /-- Bytes remain after the mask section. -/
  | trailingBytes
  deriving DecidableEq, Repr

/-- The number of leading 1 bits of a byte (R71). -/
def leadingOnes (b : Byte) : Nat :=
  let v := b.toNat
  if v < 0x80 then 0 else if v < 0xC0 then 1 else if v < 0xE0 then 2 else if v < 0xF0 then 3
  else if v < 0xF8 then 4 else if v < 0xFC then 5 else if v < 0xFE then 6 else if v < 0xFF then 7 else 8

/-- The reference varint decoder (R71): the value and the bytes after it, nothing where the bytes end too early. -/
def referenceVarint : List Byte → Option (Nat × List Byte)
  | [] => none
  | b :: rest =>
    let l := leadingOnes b
    if rest.length < l then none
    else
      let low := littleEndian (rest.take l)
      some (if l = 8 then low else (b.toNat % 2 ^ (7 - l)) * 2 ^ (8 * l) + low, rest.drop l)

/-- `VARINT` (R71). -/
def readVarint : VarintCodec → List Byte → Option (Nat × List Byte)
  | .reference, bytes => referenceVarint bytes
  | .other, bytes => Config.otherVarint bytes

/-- The jump table's entries (R72): none where the width is 0. -/
def jumpEntries (n z : Nat) (section_ : List Byte) : List (BitVec 32) :=
  if z = 0 then []
  else (List.range n).map fun k => BitVec.ofNat 32 (littleEndian ((section_.drop (k * z)).take z))

/-- The mask bits of `L` code indices (R73), least significant bit first; padding bits are not read. -/
def maskBits (L : Nat) (maskBytes : List Byte) : List Bool :=
  (List.range L).map fun i => (maskBytes.getD (i / 8) 0).getLsbD (i % 8)

/-- The number of mask bytes of `L` code bytes, `ceil(L/8)` (R70). -/
def maskLength (L : Nat) : Nat := (L + 7) / 8

/-- The three sections after the header, sliced one after the other (R70), with the checks of R74. -/
def readSections (n z L : Nat) (body : List Byte) : Except DecodeFault Program :=
  let tableLength := n * z
  let total := tableLength + L + maskLength L
  if body.length < total then .error .truncatedSections
  else if total < body.length then .error .trailingBytes
  else .ok
    { code := (body.drop tableLength).take L
      mask := maskBits L (body.drop (tableLength + L))
      jumpTable := jumpEntries n z (body.take tableLength) }

/-- The program decoder (R70, R74). -/
def decodeImage (codec : VarintCodec) (image : List Byte) : Except DecodeFault Program :=
  match readVarint codec image with
  | none => .error .truncatedHeader
  | some (_, []) => .error .truncatedHeader
  | some (n, z :: rest) =>
    match readVarint codec rest with
    | none => .error .truncatedHeader
    | some (L, body) =>
      if 4 < z.toNat then .error .itemWidth
      else if 2 ^ 32 ≤ L then .error .codeLength
      else readSections n z.toNat L body

/-- How many bytes after the first one the shortest reference varint of `v` needs. -/
def varintExtra (v : Nat) : Nat := ((List.range 8).find? fun l => decide (v < 2 ^ (7 * (l + 1)))).getD 8

/-- The shortest reference varint of `v < 2^64`: the inverse of R71's decoder that the image encoder uses
(log entry 23). -/
def encodeVarint (v : Nat) : List Byte :=
  let l := varintExtra v
  if l = 8 then 0xFF :: bytesOf 8 v
  else BitVec.ofNat 8 (2 ^ 8 - 2 ^ (8 - l) + v / 2 ^ (8 * l)) :: bytesOf l v

/-- One mask byte: the bits of code indices `8j` to `8j + 7`, padding bits 0 (R73). -/
def packByte (mask : List Bool) (j : Nat) : Byte :=
  BitVec.ofNat 8 (((List.range 8).map fun k => if mask.getD (8 * j + k) false then 2 ^ k else 0).sum)

/-- A program image with jump-table item width `z` (R70), under the reference varint codec (log entry 23). -/
def encodeImage (z : Nat) (p : Program) : List Byte :=
  encodeVarint p.jumpTable.length ++ [BitVec.ofNat 8 z] ++ encodeVarint p.code.length ++
    p.jumpTable.flatMap (fun entry => bytesOf z entry.toNat) ++ p.code ++
    (List.range (maskLength p.code.length)).map (packByte p.mask)

/-! ## What the host asks of the decoder -/

/-- The bytes of an instruction given as a number, bit 0 the least significant bit of the first byte, with zero operand
bytes up to the longest encoding of R111 (6 bytes). -/
def wordBytes (nbits w : Nat) : List Byte :=
  bytesOf (nbits / 8) w ++ List.replicate (6 - nbits / 8) 0

/-- One instruction's bytes as a whole program: a start at index 0 and no other. -/
def singleProgram (bytes : List Byte) : Program :=
  { code := bytes, mask := true :: List.replicate (bytes.length - 1) false, jumpTable := [] }

/-- The instruction the decoder reads from the bytes of `w` under the reference opcode map. An unmapped byte decodes as
TRAP and is not refused (R81). -/
def decodeTableWord (nbits w : Nat) : Option Instr :=
  some (decode referenceMap (singleProgram (wordBytes nbits w)) 0).instr

end Sys2Proof
end

