-- ==== Sys2Proof/Machine/Defaults.lean ====
section
/-! DEFINITION. The default values the spec gives the open parameters (00_scope.md R5), as `State.reset` holds them. A
launch may supply others (70_reset_and_hazards.md R230). -/

namespace Sys2Proof.Machine

/-- The default `GAS_COST`: 1 for every instruction (40_control.md R123, decision D3). -/
def defaultGasCost : GasTable := { listed := [], others := .constant 1 }

/-- The default `HALT_RET_REGS`: `(r7, r8)` (60_exceptions.md R213, decision D22). -/
def defaultHaltRetRegs : Reg × Reg := (7, 8)

/-- The parameters at their defaults; the host registers no host call (log entry 11). -/
def defaultParams : Params :=
  { opcodeMap := referenceMap, gasCost := defaultGasCost, haltRetRegs := defaultHaltRetRegs, registry := [] }

end Sys2Proof.Machine
end

