-- ==== Sys2Proof/Machine/State.lean ====
section
/-! DEFINITION. The state of one instance (10_state.md): its program, registers, pc, gas, status and data memory, with
its parameters and the host's side of a suspension; why a step can stop; and the state before any launch. -/

namespace Sys2Proof.Machine

/-- The register file: 13 registers of one width `W`, 32 or 64 bits (10_state.md R20). The width is part of the
file, so no instance mixes the two. -/
inductive RegFile where
  /-- `W = 32`. -/
  | w32 (x : Vector (BitVec 32) 13)
  /-- `W = 64`. -/
  | w64 (x : Vector (BitVec 64) 13)
  deriving DecidableEq, Repr

/-- The interpreter status (10_state.md R30, R31). -/
inductive Status where
  | running
  | halted
  | panicked
  | outOfGas
  /-- Suspended at an ECALLI with this host-call index. -/
  | awaitingHostCall (index : BitVec 32)
  deriving DecidableEq, Repr

/-- The contents of data memory as the collaborator holds them (10_state.md R39, 20_memory.md R55): bytes by address. An
address that is not listed holds nothing, and faults (log entry 15). -/
abbrev Memory := List Host.Cell

/-- The canonical form of memory: addresses strictly rising, so equal memories are equal lists. -/
abbrev Memory.wf (m : Memory) : Prop := (m.map Prod.fst).Pairwise (· < ·)

/-- The two requests of the collaborator's interface (20_memory.md R55). -/
inductive AccessKind where
  | load
  | store
  deriving DecidableEq, Repr

/-- A reason of the collaborator's own to answer a request with `fault`: the block assumes nothing about which addresses
fault, about pages, permissions or alignment (20_memory.md R55, R58; log entry 15). -/
inductive FaultRule where
  /-- Every request of this kind that touches one of the `size` addresses from `base`. -/
  | touching (kind : AccessKind) (base size : Nat)
  /-- This very request. -/
  | exactly (kind : AccessKind) (addr len : Nat)
  deriving DecidableEq, Repr

/-- What a host-call handler returns (60_exceptions.md R208). -/
inductive Verdict where
  | normal
  | haltRequested
  deriving DecidableEq, Repr

/-- How far the host has come in answering the present host call (60_exceptions.md R208 to R211; log entry 13). -/
inductive HostPhase where
  /-- The host has not yet charged the call. -/
  | pending
  /-- The call's gas is paid and the handler runs. -/
  | handling
  /-- The handler has returned. -/
  | returned (verdict : Verdict)
  deriving DecidableEq, Repr

/-- One move of the host while the instance is suspended (60_exceptions.md R208; log entry 12). -/
inductive HostMove where
  /-- Charge the descriptor's gas cost (R209). -/
  | charge
  /-- The handler writes one register (R208). -/
  | setReg (r : Reg) (value : Int)
  /-- The handler or the host sets all registers by marshalling (10_state.md R26). -/
  | setFromBytes (bytes : List Byte)
  /-- The handler stores bytes through the memory collaborator (20_memory.md R55). -/
  | store (addr : Nat) (bytes : List Byte)
  /-- The collaborator gives these addresses these contents (its page map is its own, R55). -/
  | mapBytes (addr : Nat) (bytes : List Byte)
  /-- The collaborator takes an address range out of its map. -/
  | unmapBytes (addr len : Nat)
  /-- The collaborator changes which requests fault, whatever memory holds (R55). -/
  | setFaults (rules : List FaultRule)
  /-- The handler spends gas, through `Gas.sub` only (R208); an underflow ends the handler (log entry 14). -/
  | spendGas (amount : Nat)
  /-- The handler returns (R208). -/
  | handlerReturns (verdict : Verdict)
  /-- The host resumes the instance after a normal return (R210). -/
  | resume
  /-- The host halts the instance after `haltRequested` (R211). -/
  | halt
  deriving DecidableEq, Repr

/-- The state of one instance. -/
structure State where
  /-- The parameters of 00_scope.md R5; no step changes them. -/
  params    : Params
  /-- The program (10_state.md R34); no step changes it. -/
  program   : Program
  /-- The 13 registers (R20). -/
  regs      : RegFile
  /-- The program counter, a code index (R27). -/
  pc        : BitVec 32
  /-- The gas counter (R28). -/
  gas       : BitVec 64
  /-- The status (R30). -/
  status    : Status
  /-- The contents of the instance's data memory (R39). -/
  memory    : Memory
  /-- Which requests the collaborator answers with `fault` beside those for addresses that hold nothing (R39, R55). -/
  memoryFaults : List FaultRule
  /-- MODEL'S OWN: how far the host has answered the present host call (log entry 13). -/
  hostPhase : HostPhase
  /-- MODEL'S OWN: the moves the host will make while the instance is suspended, first move first (log entry 12). -/
  hostMoves : List HostMove
  deriving DecidableEq, Repr

/-- The state before any launch (log entries 2 to 6, 10 to 13, 15): the block has no reset and no fixed reset values
(10_state.md R41), so every launch argument holds the empty or zero value that the log names. -/
def State.reset : State :=
  { params := defaultParams
    program := { code := [], mask := [], jumpTable := [] }
    regs := .w64 (Vector.replicate 13 0)
    pc := 0
    gas := 0
    status := .running
    memory := []
    memoryFaults := []
    hostPhase := .pending
    hostMoves := [] }

/-- Why the machine takes no step: "no transition is defined" (93_implementation_defined.md). -/
inductive Fault where
  /-- Raised by `step` in a Halted instance: no step of the block is defined (R30). Safe. -/
  | endedHalted
  /-- Raised by `step` in a Panicked instance (R30). Safe. -/
  | endedPanicked
  /-- Raised by `step` in an OutOfGas instance (R30). Safe. -/
  | endedOutOfGas
  /-- Raised by `step` in an instance suspended at a host call whose host has no move to make: the block takes no
  step (R207, R221). Safe. -/
  | awaitingHost (index : BitVec 32)
  /-- Raised by `step` in an instance suspended at an index the registry does not know: stuck for good (R212). Safe. -/
  | hostCallUnknown (index : BitVec 32)
  deriving DecidableEq, Repr

/-- What the model is not asked for. -/
inductive Refusal where
  /-- Raised by `exec` for an instruction without a meaning; no arm raises it. Safe. -/
  | notModelled (mnemonic : String)
  /-- Raised by `step` for a host move that R208 to R211 do not allow at that point of a host call. Safe. -/
  | hostMoveOutOfTurn (move : HostMove)
  /-- Raised by `step` for a marshalling in of the wrong number of bytes (10_state.md R26): the call fails. Safe. -/
  | marshalLength (given : Nat)
  deriving DecidableEq, Repr

end Sys2Proof.Machine
end

