-- ==== Sys2Proof/Machine/Ops.lean ====
section
/-! DEFINITION. The named operations over registers, data memory, gas, pc and status. Every instruction and every
host move acts through these. -/

namespace Sys2Proof.Machine

/-! ## Registers (10_state.md R20 to R26) -/

/-- The register width `W`. -/
def RegFile.width : RegFile → Nat
  | .w32 _ => 32
  | .w64 _ => 64

/-- The unsigned view `ux[r]` (R22). -/
def RegFile.ux : RegFile → Reg → Nat
  | .w32 x, r => x[r.val].toNat
  | .w64 x, r => x[r.val].toNat

/-- The signed view `sx[r]` of the same storage (R22). -/
def RegFile.sx (rf : RegFile) (r : Reg) : Int := sView rf.width (rf.ux r)

/-- `x[r] <- z`: the pattern `wrap_W(z)`, for a signed or an unsigned `z` (00_scope.md R9). -/
def RegFile.write : RegFile → Reg → Int → RegFile
  | .w32 x, r, z => .w32 (x.set r.val (BitVec.ofInt 32 z))
  | .w64 x, r, z => .w64 (x.set r.val (BitVec.ofInt 64 z))

/-- The unsigned register values in index order. -/
def RegFile.values (rf : RegFile) : List Nat := (List.finRange 13).map rf.ux

/-- `getBytesAsLittleEndian()` (R25): the registers in index order, each as `W/8` bytes. -/
def RegFile.getBytes (rf : RegFile) : List Byte :=
  (List.finRange 13).flatMap fun r => bytesOf (rf.width / 8) (rf.ux r)

/-- The registers set one after the other from consecutive groups of `W/8` bytes. -/
def RegFile.setEach (bytes : List Byte) (rf : RegFile) (rs : List Reg) : RegFile :=
  rs.foldl (fun acc r =>
    acc.write r (littleEndian ((bytes.drop (r.val * (rf.width / 8))).take (rf.width / 8)) : Nat)) rf

/-- `setFromBytes(bytes)` (R26): nothing unless exactly `13 · W/8` bytes are given. -/
def RegFile.setFromBytes (rf : RegFile) (bytes : List Byte) : Option RegFile :=
  if bytes.length = 13 * (rf.width / 8) then some (rf.setEach bytes (List.finRange 13)) else none

/-- The register width of an instance. -/
def State.width (s : State) : Nat := s.regs.width

/-- `ux[r]` of an instance. -/
def State.ux (s : State) (r : Reg) : Nat := s.regs.ux r

/-- `sx[r]` of an instance. -/
def State.sx (s : State) (r : Reg) : Int := s.regs.sx r

/-- `x[r] <- z` in an instance. -/
def State.writeReg (s : State) (r : Reg) (z : Int) : State := { s with regs := s.regs.write r z }

/-! ## Data memory: its contents, then the collaborator's interface (20_memory.md R55) -/

/-- The byte an address holds, where it is listed. -/
def Memory.read : Memory → Nat → Option Byte
  | [], _ => none
  | (x, y) :: rest, a => if a = x then some y else Memory.read rest a

/-- The bytes that `len` addresses hold, or nothing where one of them is not listed. -/
def Memory.load (m : Memory) (addr : Nat) : (len : Nat) → Option (List Byte)
  | 0 => some []
  | len + 1 =>
    match Memory.read m addr with
    | none => none
    | some b => (Memory.load m (addr + 1) len).map (b :: ·)

/-- One byte listed at its place. -/
def Memory.put : Memory → Nat → Byte → Memory
  | [], a, b => [(a, b)]
  | (x, y) :: rest, a, b =>
    if a < x then (a, b) :: (x, y) :: rest
    else if a = x then (a, b) :: rest
    else (x, y) :: Memory.put rest a b

/-- Consecutive bytes listed from `addr`. -/
def Memory.putAll (m : Memory) (addr : Nat) : List Byte → Memory
  | [] => m
  | b :: rest => Memory.putAll (Memory.put m addr b) (addr + 1) rest

/-- The addresses `addr` to `addr + len - 1` no longer listed. -/
def Memory.remove (m : Memory) (addr len : Nat) : Memory :=
  m.filter fun cell => !(decide (addr ≤ cell.1) && decide (cell.1 < addr + len))

/-- The contents with these bytes written, or nothing where some address is not listed. -/
def Memory.store (m : Memory) (addr : Nat) (bytes : List Byte) : Option Memory :=
  match Memory.load m addr bytes.length with
  | none => none
  | some _ => some (Memory.putAll m addr bytes)

/-- Whether a rule of the collaborator's makes this request fault. -/
def FaultRule.applies (kind : AccessKind) (addr len : Nat) : FaultRule → Bool
  | .touching k base size => decide (k = kind) && decide (max addr base < min (addr + len) (base + size))
  | .exactly k a l => decide (k = kind ∧ a = addr ∧ l = len)

/-- Whether the collaborator makes this request fault, whatever memory holds. -/
def faultsOn (rules : List FaultRule) (kind : AccessKind) (addr len : Nat) : Bool :=
  rules.any (FaultRule.applies kind addr len)

/-- `load(addr, len)` (R55): the bytes, or nothing (a fault). -/
def State.load (s : State) (addr len : Nat) : Option (List Byte) :=
  if faultsOn s.memoryFaults .load addr len then none else Memory.load s.memory addr len

/-- `store(addr, bytes)` (R55): the state after it, or nothing (a fault). -/
def State.store (s : State) (addr : Nat) (bytes : List Byte) : Option State :=
  if faultsOn s.memoryFaults .store addr bytes.length then none
  else (Memory.store s.memory addr bytes).map fun m => { s with memory := m }

/-! ## Gas (10_state.md R28, R29) -/

/-- `Gas.sub(amount)` (R29): the counter after it, and whether it underflowed. -/
def gasSub (gas : BitVec 64) (amount : Nat) : BitVec 64 × Bool :=
  if gas.toNat < amount then (0, true) else (gas - BitVec.ofNat 64 amount, false)

/-- `GAS_COST(ins, x)` (40_control.md R120): the listed cost of the mnemonic, else that of every other. -/
def gasCost (t : GasTable) (op : Op) (rf : RegFile) : Nat :=
  match (t.listed.lookup op).getD t.others with
  | .constant amount => amount
  | .ofRegisters => Config.gasCost op rf.width rf.values

/-! ## Status, pc and the step's own operations (00_scope.md R12, 60_exceptions.md R206) -/

/-- Every event of the block: the status changes and nothing is saved (R206). -/
def State.raise (st : Status) (s : State) : State := { s with status := st }

/-- A charge of gas (40_control.md R120, R123; 60_exceptions.md R209): on underflow the instance is OutOfGas with
`gas = 0` and nothing else happens; else `paid` goes on. -/
def State.charge (amount : Nat) (s : State) (paid : State → Host.Outcome State Fault Refusal) :
    Host.Outcome State Fault Refusal :=
  match gasSub s.gas amount with
  | (g, true) => .next ({ s with gas := g }.raise .outOfGas)
  | (g, false) => paid { s with gas := g }

/-- The length of the instruction at `pc` (30_encoding.md R78). -/
def State.skip (s : State) : Nat := s.program.skip s.pc.toNat

/-- Sequential advance (40_control.md R125). -/
def State.advance (s : State) : State := { s with pc := s.pc + BitVec.ofNat 32 s.skip }

/-- The suspension for host call `index` (40_control.md R129), with the host's answer still to begin. -/
def State.suspend (index : BitVec 32) (s : State) : State :=
  { s.raise (.awaitingHostCall index) with hostPhase := .pending }

/-- The common effects of an instruction with a result (41_arithmetic.md R141, 42_bitwise_shift.md R171): `rD` is
written and the pc advances. -/
def State.retire (rD : Reg) (z : Int) (s : State) : Host.Outcome State Fault Refusal :=
  .next (s.writeReg rD z).advance

/-- The instruction at `pc` with its mnemonic and fields (40_control.md R120). -/
def State.decoded (s : State) : Decoded := decode s.params.opcodeMap s.program s.pc.toNat

/-- What the instruction at `pc` costs, with the registers as they are before it (R120). -/
def State.cost (s : State) : Nat := gasCost s.params.gasCost s.decoded.op s.regs

end Sys2Proof.Machine
end

