-- ==== Sys2Proof/Machine/Operands.lean ====
section
/-! DEFINITION. The operand forms at width `W` and the functions of R7 and R173 that the instruction rules are written
with. Patterns are given by their unsigned reading. The block has no flags (10_state.md R32), so there is no file of flag
computations. -/

namespace Sys2Proof.Machine

/-- `MAX_W`, all ones (00_scope.md R7). -/
def maxPattern (W : Nat) : Nat := 2 ^ W - 1

/-- `MIN_W` as a pattern (00_scope.md R7). -/
def minPattern (W : Nat) : Nat := 2 ^ (W - 1)

/-- `floor_div(a, b)` (00_scope.md R7). -/
def floorDiv (a b : Int) : Int := Int.fdiv a b

/-- `trunc_div(a, b)`, rounded toward zero (00_scope.md R7). -/
def truncDiv (a b : Int) : Int := Int.tdiv a b

/-- `u_W(immW)`: the immediate as a `W`-bit pattern, `sext_W(imm, 32)` (30_encoding.md R87). -/
def immW (W : Nat) (imm : Imm) : Nat := wrap W imm.toInt

/-- `shl_W(v, n)` before it is wrapped (42_bitwise_shift.md R173). -/
def shlW (W v n : Nat) : Int := ((v * 2 ^ (n % W) : Nat) : Int)

/-- `shr_W(v, n)` (R173). -/
def shrW (W v n : Nat) : Int := ((v / 2 ^ (n % W) : Nat) : Int)

/-- `sar_W(v, n)` before it is wrapped (R173). -/
def sarW (W v n : Nat) : Int := floorDiv (sView W v) ((2 ^ (n % W) : Nat) : Int)

end Sys2Proof.Machine
end

