-- ==== Sys2Proof/Machine/Arithmetic.lean ====
section
/-! DEFINITION. The arithmetic instructions (41_arithmetic.md), each from its own pseudocode on unbounded integers; the write
narrows to `W` bits (R142). -/

namespace Sys2Proof.Machine

/-- ADD (R143). -/
def execAdd (rD rA rB : Reg) (s : State) : Host.Outcome State Fault Refusal :=
  s.retire rD ((s.ux rA : Int) + s.ux rB)

/-- SUB (R144). -/
def execSub (rD rA rB : Reg) (s : State) : Host.Outcome State Fault Refusal :=
  s.retire rD ((s.ux rA : Int) - s.ux rB)

/-- NEG_ADD_IMM (R145): the register is the subtrahend. -/
def execNegAddImm (rD rS : Reg) (imm : Imm) (s : State) : Host.Outcome State Fault Refusal :=
  s.retire rD ((immW s.width imm : Int) - s.ux rS)

/-- MUL (R146). -/
def execMul (rD rA rB : Reg) (s : State) : Host.Outcome State Fault Refusal :=
  s.retire rD ((s.ux rA : Int) * s.ux rB)

/-- MUL_UPPER_UU (R147). -/
def execMulUpperUU (rD rA rB : Reg) (s : State) : Host.Outcome State Fault Refusal :=
  s.retire rD (floorDiv ((s.ux rA : Int) * s.ux rB) ((2 ^ s.width : Nat) : Int))

/-- MUL_UPPER_SS (R148). -/
def execMulUpperSS (rD rA rB : Reg) (s : State) : Host.Outcome State Fault Refusal :=
  s.retire rD (floorDiv (s.sx rA * s.sx rB) ((2 ^ s.width : Nat) : Int))

/-- MUL_UPPER_SU (R149): `rA` is read signed, `rB` unsigned. -/
def execMulUpperSU (rD rA rB : Reg) (s : State) : Host.Outcome State Fault Refusal :=
  s.retire rD (floorDiv (s.sx rA * s.ux rB) ((2 ^ s.width : Nat) : Int))

/-- DIV_U (R150): all ones for a zero divisor. -/
def execDivU (rD rA rB : Reg) (s : State) : Host.Outcome State Fault Refusal :=
  if s.ux rB = 0 then s.retire rD (maxPattern s.width)
  else s.retire rD (floorDiv (s.ux rA) (s.ux rB))

/-- DIV_S (R151): all ones for a zero divisor, `MIN_W` for `MIN / -1`. -/
def execDivS (rD rA rB : Reg) (s : State) : Host.Outcome State Fault Refusal :=
  if s.sx rB = 0 then s.retire rD (maxPattern s.width)
  else if s.sx rA = -(minPattern s.width : Int) ∧ s.sx rB = -1 then s.retire rD (minPattern s.width)
  else s.retire rD (truncDiv (s.sx rA) (s.sx rB))

/-- REM_U (R152): the dividend for a zero divisor. -/
def execRemU (rD rA rB : Reg) (s : State) : Host.Outcome State Fault Refusal :=
  if s.ux rB = 0 then s.retire rD (s.ux rA)
  else s.retire rD ((s.ux rA % s.ux rB : Nat) : Int)

/-- REM_S (R153): the dividend for a zero divisor, 0 for `MIN % -1`. -/
def execRemS (rD rA rB : Reg) (s : State) : Host.Outcome State Fault Refusal :=
  if s.sx rB = 0 then s.retire rD (s.ux rA)
  else if s.sx rA = -(minPattern s.width : Int) ∧ s.sx rB = -1 then s.retire rD 0
  else s.retire rD (s.sx rA - s.sx rB * truncDiv (s.sx rA) (s.sx rB))

end Sys2Proof.Machine
end

