-- ==== Sys2Proof/Machine/Bitwise.lean ====
section
/-! DEFINITION. The bitwise instructions (42_bitwise_shift.md section 2), bit by bit over `W` bits (R177). -/

namespace Sys2Proof.Machine

/-- AND (R174). -/
def execAnd (rD rA rB : Reg) (s : State) : Host.Outcome State Fault Refusal :=
  s.retire rD ((s.ux rA &&& s.ux rB : Nat) : Int)

/-- OR (R175). -/
def execOr (rD rA rB : Reg) (s : State) : Host.Outcome State Fault Refusal :=
  s.retire rD ((s.ux rA ||| s.ux rB : Nat) : Int)

/-- XOR (R176). -/
def execXor (rD rA rB : Reg) (s : State) : Host.Outcome State Fault Refusal :=
  s.retire rD ((s.ux rA ^^^ s.ux rB : Nat) : Int)

end Sys2Proof.Machine
end

