-- ==== Sys2Proof/Machine/Control.lean ====
section
/-! DEFINITION. The control instructions (40_control.md section 2). -/

namespace Sys2Proof.Machine

/-- TRAP (R127): Panicked, the pc stays at the TRAP's own address. -/
def execTrap (s : State) : Host.Outcome State Fault Refusal := .next (s.raise .panicked)

/-- ECALLI (R129): the pc advances, then the instance suspends with index `imm.u`. -/
def execEcalli (imm : Imm) (s : State) : Host.Outcome State Fault Refusal := .next (s.advance.suspend imm)

end Sys2Proof.Machine
end

