-- ==== Sys2Proof/Machine/Shift.lean ====
section
/-! DEFINITION. The shift instructions (42_bitwise_shift.md sections 3 to 5). Every amount is taken modulo `W` (R172). -/

namespace Sys2Proof.Machine

/-- SHL (R178). -/
def execShl (rD rA rB : Reg) (s : State) : Host.Outcome State Fault Refusal :=
  s.retire rD (shlW s.width (s.ux rA) (s.ux rB))

/-- SHR (R179). -/
def execShr (rD rA rB : Reg) (s : State) : Host.Outcome State Fault Refusal :=
  s.retire rD (shrW s.width (s.ux rA) (s.ux rB))

/-- SAR (R180). -/
def execSar (rD rA rB : Reg) (s : State) : Host.Outcome State Fault Refusal :=
  s.retire rD (sarW s.width (s.ux rA) (s.ux rB))

/-- SHL_IMM (R181): the register is shifted by the immediate. -/
def execShlImm (rD rS : Reg) (imm : Imm) (s : State) : Host.Outcome State Fault Refusal :=
  s.retire rD (shlW s.width (s.ux rS) (immW s.width imm))

/-- SHR_IMM (R182). -/
def execShrImm (rD rS : Reg) (imm : Imm) (s : State) : Host.Outcome State Fault Refusal :=
  s.retire rD (shrW s.width (s.ux rS) (immW s.width imm))

/-- SAR_IMM (R183). -/
def execSarImm (rD rS : Reg) (imm : Imm) (s : State) : Host.Outcome State Fault Refusal :=
  s.retire rD (sarW s.width (s.ux rS) (immW s.width imm))

/-- SHL_IMM_ALT (R184): the immediate is shifted by the register. -/
def execShlImmAlt (rD rS : Reg) (imm : Imm) (s : State) : Host.Outcome State Fault Refusal :=
  s.retire rD (shlW s.width (immW s.width imm) (s.ux rS))

/-- SHR_IMM_ALT (R185). -/
def execShrImmAlt (rD rS : Reg) (imm : Imm) (s : State) : Host.Outcome State Fault Refusal :=
  s.retire rD (shrW s.width (immW s.width imm) (s.ux rS))

/-- SAR_IMM_ALT (R186). -/
def execSarImmAlt (rD rS : Reg) (imm : Imm) (s : State) : Host.Outcome State Fault Refusal :=
  s.retire rD (sarW s.width (immW s.width imm) (s.ux rS))

end Sys2Proof.Machine
end

