-- ==== Sys2Proof/Machine/Dispatch.lean ====
section
/-! DEFINITION. Execute (40_control.md R124): one meaning per instruction. -/

namespace Sys2Proof.Machine

/-- The effect of an instruction that has paid its gas (40_control.md R120, R124). -/
def exec (i : Instr) (s : State) : Host.Outcome State Fault Refusal :=
  match i with
  -- 40_control.md
  | .trap => Sys2Proof.Machine.execTrap s
  | .ecalli imm => Sys2Proof.Machine.execEcalli imm s
  -- TWO_REGISTERS_ONE_IMMEDIATE
  | .shlImm rD rS imm => Sys2Proof.Machine.execShlImm rD rS imm s
  | .shrImm rD rS imm => Sys2Proof.Machine.execShrImm rD rS imm s
  | .sarImm rD rS imm => Sys2Proof.Machine.execSarImm rD rS imm s
  | .negAddImm rD rS imm => Sys2Proof.Machine.execNegAddImm rD rS imm s
  | .shlImmAlt rD rS imm => Sys2Proof.Machine.execShlImmAlt rD rS imm s
  | .shrImmAlt rD rS imm => Sys2Proof.Machine.execShrImmAlt rD rS imm s
  | .sarImmAlt rD rS imm => Sys2Proof.Machine.execSarImmAlt rD rS imm s
  -- THREE_REGISTERS
  | .add rD rA rB => Sys2Proof.Machine.execAdd rD rA rB s
  | .sub rD rA rB => Sys2Proof.Machine.execSub rD rA rB s
  | .mul rD rA rB => Sys2Proof.Machine.execMul rD rA rB s
  | .divU rD rA rB => Sys2Proof.Machine.execDivU rD rA rB s
  | .divS rD rA rB => Sys2Proof.Machine.execDivS rD rA rB s
  | .remU rD rA rB => Sys2Proof.Machine.execRemU rD rA rB s
  | .remS rD rA rB => Sys2Proof.Machine.execRemS rD rA rB s
  | .shl rD rA rB => Sys2Proof.Machine.execShl rD rA rB s
  | .shr rD rA rB => Sys2Proof.Machine.execShr rD rA rB s
  | .sar rD rA rB => Sys2Proof.Machine.execSar rD rA rB s
  | .and rD rA rB => Sys2Proof.Machine.execAnd rD rA rB s
  | .xor rD rA rB => Sys2Proof.Machine.execXor rD rA rB s
  | .or rD rA rB => Sys2Proof.Machine.execOr rD rA rB s
  | .mulUpperSS rD rA rB => Sys2Proof.Machine.execMulUpperSS rD rA rB s
  | .mulUpperUU rD rA rB => Sys2Proof.Machine.execMulUpperUU rD rA rB s
  | .mulUpperSU rD rA rB => Sys2Proof.Machine.execMulUpperSU rD rA rB s

end Sys2Proof.Machine
end

