-- ==== Sys2Proof/Machine/Cycle.lean ====
section
/-! DEFINITION. The step of a running instance (40_control.md section 1). -/

namespace Sys2Proof.Machine

/-- `step()` (R120): fetch, decode, charge the instruction's gas, execute. It is defined for a running instance; `step`
calls it only there. -/
def cycle (s : State) : Host.Outcome State Fault Refusal :=
  s.charge s.cost fun paid => exec s.decoded.instr paid

end Sys2Proof.Machine
end

