-- ==== Sys2Proof/Machine/HostCall.lean ====
section
/-! DEFINITION. The host's side of a suspension (60_exceptions.md sections 3 and 4): its moves, in the order R208 to
R211 give them, the host-call index numbering, and the halt result. -/

namespace Sys2Proof.Machine

/-- The descriptor of a host-call index, where `HOST_REGISTRY` has one (R209, R212). -/
def hostDescriptor (p : Params) (index : BitVec 32) : Option HostDescriptor :=
  p.registry.find? fun d => d.index == index

/-- The cost of a host call on the registers as they are (R209). -/
def hostCost (d : HostDescriptor) (rf : RegFile) : Nat :=
  match d.cost with
  | .constant amount => amount
  | .ofRegisters => Config.hostCost d.index rf.width rf.values

/-- R209: the descriptor's cost is charged up front; on underflow the handler is not called. -/
def hostCharge (d : HostDescriptor) (s : State) : Host.Outcome State Fault Refusal :=
  s.charge (hostCost d s.regs) fun paid => .next { paid with hostPhase := .handling }

/-- A handler's `setFromBytes` (10_state.md R26). -/
def hostSetFromBytes (bytes : List Byte) (s : State) : Host.Outcome State Fault Refusal :=
  match s.regs.setFromBytes bytes with
  | some rf => .next { s with regs := rf }
  | none => .refused (.marshalLength bytes.length)

/-- A handler's store: a fault is a return value to the handler and changes nothing (20_memory.md R55). -/
def hostStore (addr : Nat) (bytes : List Byte) (s : State) : Host.Outcome State Fault Refusal :=
  .next ((s.store addr bytes).getD s)

/-- A handler's own `Gas.sub` (R208, R29). Its underflow leaves no gas and the handler must treat it as immediate
termination, which R208 lets it do only by returning `haltRequested`: it is no cause of OutOfGas (R201; log entry 14). -/
def hostSpend (amount : Nat) (s : State) : Host.Outcome State Fault Refusal :=
  match gasSub s.gas amount with
  | (g, true) => .next { s with gas := g, hostPhase := .returned .haltRequested }
  | (g, false) => .next { s with gas := g }

/-- R210: the loop continues at the current pc. -/
def hostResume (s : State) : Host.Outcome State Fault Refusal :=
  .next { s.raise .running with hostPhase := .pending }

/-- R211: Halted, without further execution. -/
def hostHalt (s : State) : Host.Outcome State Fault Refusal :=
  .next { s.raise .halted with hostPhase := .pending }

/-- One host move in the host call that descriptor `d` answers (R208): the charge first, then what the handler does,
then its return, then the resume or the halt that the return calls for. Any other move is refused. -/
def hostMove (d : HostDescriptor) (s : State) (move : HostMove) : Host.Outcome State Fault Refusal :=
  match s.hostPhase, move with
  | .pending, .charge => hostCharge d s
  | .handling, .setReg r value => .next (s.writeReg r value)
  | .handling, .setFromBytes bytes => hostSetFromBytes bytes s
  | .handling, .store addr bytes => hostStore addr bytes s
  | .handling, .mapBytes addr bytes => .next { s with memory := Memory.putAll s.memory addr bytes }
  | .handling, .unmapBytes addr len => .next { s with memory := Memory.remove s.memory addr len }
  | .handling, .setFaults rules => .next { s with memoryFaults := rules }
  | .handling, .spendGas amount => hostSpend amount s
  | .handling, .handlerReturns verdict => .next { s with hostPhase := .returned verdict }
  | .returned .normal, .resume => hostResume s
  | .returned .haltRequested, .halt => hostHalt s
  | _, _ => .refused (.hostMoveOutOfTurn move)

/-- The turn of the host in an instance suspended at `index` (R207, R212): stuck where no descriptor is known, else
the host's next move, and no step where it has none. -/
def hostTurn (index : BitVec 32) (s : State) : Host.Outcome State Fault Refusal :=
  match hostDescriptor s.params index with
  | none => .fault (.hostCallUnknown index)
  | some d =>
    match s.hostMoves with
    | [] => .fault (.awaitingHost index)
    | move :: rest => hostMove d { s with hostMoves := rest } move

/-- The halt result (R213): the bytes at the `(address, length)` in the two return registers, both modulo `2^32`; empty
where the read faults; nothing where the instance is not Halted. -/
def haltResult (s : State) : Option (List Byte) :=
  match s.status with
  | .halted =>
    let (ra, rl) := s.params.haltRetRegs
    some ((s.load (s.ux ra % 2 ^ 32) (s.ux rl % 2 ^ 32)).getD [])
  | _ => none

/-- The status codes of the spec's tables (R200). -/
def Status.code : Status → Nat
  | .running => 0
  | .halted => 1
  | .panicked => 2
  | .outOfGas => 3
  | .awaitingHostCall _ => 4

/-- The host-call index numbering (R215): data for the host's registry; the block attaches no meaning to it. -/
def hostCallNames : List (Nat × String) :=
  [(0, "gas"), (1, "fetch"), (2, "lookup"), (3, "read"), (4, "write"), (5, "info"), (6, "historical_lookup"),
   (7, "export"), (8, "machine"), (9, "peek"), (10, "poke"), (11, "pages"), (12, "invoke"), (13, "expunge")] ++
  [(14, "bless"), (15, "assign"), (16, "designate"), (17, "checkpoint"), (18, "new"), (19, "upgrade"),
   (20, "transfer"), (21, "eject"), (22, "query"), (23, "solicit"), (24, "forget"), (25, "yield"), (26, "provide"),
   (100, "log")]

end Sys2Proof.Machine
end

