-- ==== Sys2Proof/Machine/Launch.lean ====
section
/-! DEFINITION. Launch (70_reset_and_hazards.md R230, R231), and the placing of one instruction where the next step
fetches. -/

namespace Sys2Proof.Machine

/-- The launch arguments of R230 with the parameters of 00_scope.md R5. What memory holds and which requests fault come
from the collaborator (10_state.md R41; log entry 15); the last one is the model's own (log entry 12). -/
structure LaunchArgs where
  params  : Params
  codec   : VarintCodec
  image   : List Byte
  regs0   : RegFile
  pc0     : BitVec 32
  gas0    : BitVec 64
  memory0 : Memory
  faults0 : List FaultRule
  host0   : List HostMove
  deriving DecidableEq, Repr

/-- The launch state of a decoded program (10_state.md R41). -/
def launchProgram (a : LaunchArgs) (program : Program) : State :=
  { params := a.params, program := program, regs := a.regs0, pc := a.pc0, gas := a.gas0, status := .running,
    memory := a.memory0, memoryFaults := a.faults0, hostPhase := .pending, hostMoves := a.host0 }

/-- Launch (R231): no instance exists for an image that raises a DecodeFault (60_exceptions.md R202). -/
def launch (a : LaunchArgs) : Except DecodeFault State :=
  match decodeImage a.codec a.image with
  | .error e => .error e
  | .ok program => .ok (launchProgram a program)

/-- A list as long as asked for, cut or padded. -/
def padTo {α : Type} (fill : α) (n : Nat) (xs : List α) : List α :=
  xs.take n ++ List.replicate (n - xs.length) fill

/-- A program with these bytes as one instruction at code index `pc`: the mask marks its first byte, none of the others,
and the byte after it. -/
def placeAt (p : Program) (pc : Nat) (bytes : List Byte) : Program :=
  { p with
    code := padTo 0 pc p.code ++ bytes ++ p.code.drop (pc + bytes.length)
    mask := padTo false pc p.mask ++ (true :: List.replicate (bytes.length - 1) false) ++
      (match p.mask.drop (pc + bytes.length) with
        | [] => []
        | _ :: rest => true :: rest) }

/-- What a launch of that one instruction sets: it stands at `pc`, the instance is Running, and it has at least the gas
the instruction costs (log entry 6). -/
def loadWord (s : State) (bytes : List Byte) : State :=
  let placed := { s with program := placeAt s.program s.pc.toNat bytes, status := .running }
  { placed with gas := if placed.gas.toNat < placed.cost then BitVec.ofNat 64 placed.cost else placed.gas }

end Sys2Proof.Machine
end

