-- ==== Sys2Proof/Machine/Step.lean ====
section
/-! DEFINITION. One step of the machine: the block's own step while Running, the host's turn while suspended, and no step
after a terminal status. -/

namespace Sys2Proof.Machine

/-- One step (40_control.md R120, R132; 60_exceptions.md R207; 10_state.md R30). -/
def step (s : State) : Host.Outcome State Fault Refusal :=
  match s.status with
  | .running => cycle s
  | .awaitingHostCall index => hostTurn index s
  | .halted => .fault .endedHalted
  | .panicked => .fault .endedPanicked
  | .outOfGas => .fault .endedOutOfGas

/-- The state with the instruction whose bytes are the bits of `w` placed where `step` fetches next (log entry 6). -/
def State.withFetchWord (s : State) (nbits w : Nat) : State := loadWord s (wordBytes nbits w)

end Sys2Proof.Machine
end

