-- ==== Sys2Proof/Machine/Run.lean ====
section
/-! DEFINITION. The block's run (40_control.md R121) and any number of instances over one program (60_exceptions.md
R219). -/

namespace Sys2Proof.Machine

/-- `run()` (R121) with at most `fuel` steps: it repeats the step while the status is Running and gives the first state
that is not. -/
def run : (fuel : Nat) → State → State
  | 0, s => s
  | fuel + 1, s =>
    if s.status = .running then
      match step s with
      | .next t => run fuel t
      | .fault _ => s
      | .refused _ => s
    else s

/-- One step of instance `n` among many (R219): the others keep their state. -/
def stepInstance (n : Nat) (instances : List State) : Host.Outcome (List State) Fault Refusal :=
  match instances[n]? with
  | none => .next instances
  | some s =>
    match step s with
    | .next t => .next (instances.set n t)
    | .fault r => .fault r
    | .refused r => .refused r

end Sys2Proof.Machine
end

