-- ==== Sys2Proof/Safety.lean ====
section
/-! DEFINITION. What counts as the end of a run and as a correct one (40_control.md R132), the invariant of the machine,
and the frames the claims are stated with. -/

namespace Sys2Proof.Machine

/-- A final state (R132): a terminal status. -/
def State.Final (s : State) : Prop := s.status = .halted ∨ s.status = .panicked ∨ s.status = .outOfGas

/-- A suspended state (R132): the run is not over. -/
def State.Suspended (s : State) : Prop := ∃ index, s.status = .awaitingHostCall index

/-- The normal end of a run (R132): Panicked and OutOfGas are abnormal. -/
def State.EndsWell (s : State) : Prop := s.status = .halted

/-- The invariant: the opcode map gives each byte one mnemonic (30_encoding.md R81), the mask fits the code and the code
is shorter than `2^32` bytes (10_state.md R34, 20_memory.md R51), and memory is in its canonical form. -/
abbrev State.Inv (s : State) : Prop :=
  s.params.opcodeMap.WellFormed ∧ s.program.WellFormed ∧ Memory.wf s.memory

/-- The pc is at an instruction start or at the end of code (30_encoding.md R78, 40_control.md R131). -/
def State.AtBoundary (s : State) : Prop :=
  s.program.isStart s.pc.toNat = true ∨ s.pc.toNat = s.program.code.length

/-- What no instruction and no control event changes: parameters, program, every byte of memory and which requests fault,
and the host's pending moves. -/
structure KeepsMachine (s t : State) : Prop where
  params    : t.params = s.params
  program   : t.program = s.program
  memory    : ∀ a, Memory.read t.memory a = Memory.read s.memory a
  faults    : t.memoryFaults = s.memoryFaults
  hostMoves : t.hostMoves = s.hostMoves

/-- Every register keeps its value, and the file its width. -/
structure KeepsRegisters (s t : State) : Prop where
  width : t.width = s.width
  ux    : ∀ r, t.ux r = s.ux r

/-- The frame of an instruction with a result in `rD` (41_arithmetic.md R141, 42_bitwise_shift.md R171): every other
register, gas, status, memory, program and host state are as before, and the pc advances by the instruction's length. -/
structure WritesOnly (rD : Reg) (s t : State) : Prop where
  width     : t.width = s.width
  others    : ∀ r, r ≠ rD → t.ux r = s.ux r
  pc        : t.pc = s.pc + BitVec.ofNat 32 (s.program.skip s.pc.toNat)
  gas       : t.gas = s.gas
  status    : t.status = s.status
  hostPhase : t.hostPhase = s.hostPhase
  machine   : KeepsMachine s t

/-- The instance is suspended at a known index, its handler runs, and `move` is the host's next move, with `rest` to come
(60_exceptions.md R208; log entries 12 and 13). -/
def State.HandlerMoves (s : State) (move : HostMove) (rest : List HostMove) : Prop :=
  s.hostPhase = .handling ∧ s.hostMoves = move :: rest ∧
  ∃ index d, s.status = .awaitingHostCall index ∧ hostDescriptor s.params index = some d

/-- What no move of a handler changes (60_exceptions.md R208): parameters, program, pc and the suspension; one move is
used up. -/
structure KeepsSuspension (rest : List HostMove) (s t : State) : Prop where
  params    : t.params = s.params
  program   : t.program = s.program
  pc        : t.pc = s.pc
  status    : t.status = s.status
  hostMoves : t.hostMoves = rest

/-- The frame of a handler's write of registers: gas, memory and the handler's progress are as before. -/
structure WritesRegistersOnly (rest : List HostMove) (s t : State) : Prop extends KeepsSuspension rest s t where
  gas       : t.gas = s.gas
  memory    : t.memory = s.memory
  faults    : t.memoryFaults = s.memoryFaults
  hostPhase : t.hostPhase = s.hostPhase

/-- The frame of a handler's or the collaborator's change of memory from `addr` over `len` bytes: every address outside
reads as before, and which requests fault, gas, every register and the handler's progress are as before. -/
structure WritesMemoryOnly (rest : List HostMove) (addr len : Nat) (s t : State) : Prop
    extends KeepsSuspension rest s t where
  gas       : t.gas = s.gas
  faults    : t.memoryFaults = s.memoryFaults
  registers : KeepsRegisters s t
  hostPhase : t.hostPhase = s.hostPhase
  others    : ∀ a, a < addr ∨ addr + len ≤ a → Memory.read t.memory a = Memory.read s.memory a

/-- The bytes of an instruction (30_encoding.md R111): under every opcode map the mnemonic's byte and then its operand
bytes, and the byte the reference map gives the mnemonic (R107). -/
structure EncodedAs (i : Instr) (op : Op) (reference : Byte) (operands : List Byte) : Prop where
  reference : referenceMap.byteOf op = some reference
  bytes     : ∀ (m : OpcodeMap) (b : Byte), m.byteOf op = some b → encodeWith m i = some (b :: operands)

end Sys2Proof.Machine
end

