-- ==== Sys2Proof/Certificates/Slice0/Obligations.lean ====
section
/-! DEFINITION. The statements for the provers, from the spec's numbered rules. -/

open Sys2Proof Sys2Proof.Machine

/-- TRAP (R127). -/
def Obligations.TrapPanicsInPlace : Prop :=
  (∀ s : State, ∃ t, exec .trap s = .next t ∧ t.status = .panicked ∧ t.pc = s.pc ∧ t.gas = s.gas ∧
    t.hostPhase = s.hostPhase ∧ KeepsRegisters s t ∧ KeepsMachine s t) ∧
  (∀ s : State, s.status = .running → s.decoded.op = .trap → ∃ t, step s = .next t ∧ t.pc = s.pc ∧
    KeepsRegisters s t ∧ KeepsMachine s t ∧
    (s.cost ≤ s.gas.toNat → t.status = .panicked ∧ t.gas.toNat = s.gas.toNat - s.cost) ∧
    (s.gas.toNat < s.cost → t.status = .outOfGas ∧ t.gas = 0)) ∧
  EncodedAs .trap .trap 0x00 []

/-- ECALLI (R129). That the host's answer is still to begin (`hostPhase`) is log entry 13, and the name of the stop at an
unknown index is log entry 17. -/
def Obligations.EcalliAdvancesAndSuspends : Prop :=
  (∀ (s : State) (imm : Imm), ∃ t, exec (.ecalli imm) s = .next t ∧ t.status = .awaitingHostCall imm ∧
    t.pc = s.pc + BitVec.ofNat 32 (s.program.skip s.pc.toNat) ∧ t.gas = s.gas ∧ t.hostPhase = .pending ∧
    KeepsRegisters s t ∧ KeepsMachine s t) ∧
  (∀ s : State, s.status = .running → s.decoded.op = .ecalli → s.gas.toNat < s.cost →
    ∃ t, step s = .next t ∧ t.status = .outOfGas ∧ t.gas = 0 ∧ t.pc = s.pc ∧ KeepsRegisters s t) ∧
  (∀ (s : State) (index : BitVec 32), s.status = .awaitingHostCall index →
    (∀ d ∈ s.params.registry, d.index ≠ index) → step s = .fault (.hostCallUnknown index)) ∧
  imm32 [0xFF] = 0xFFFFFFFF ∧ imm32 [] = 0 ∧
  ∀ imm : Imm, EncodedAs (.ecalli imm) .ecalli 0x0A (immBytes imm)

/-- ADD (R143), with its frame (R141) and its bytes (R111). -/
def Obligations.AddWrapsAtWidth : Prop :=
  (∀ (s : State) (rD rA rB : Reg), ∃ t, exec (.add rD rA rB) s = .next t ∧ WritesOnly rD s t ∧
    t.ux rD = (s.ux rA + s.ux rB) % 2 ^ s.width) ∧
  ∀ rD rA rB : Reg, EncodedAs (.add rD rA rB) .add 0xC8
    [BitVec.ofNat 8 (16 * rB.val + rA.val), BitVec.ofNat 8 rD.val]

/-- SUB (R144), with its frame (R141) and its bytes (R111). -/
def Obligations.SubWrapsAtWidth : Prop :=
  (∀ (s : State) (rD rA rB : Reg), ∃ t, exec (.sub rD rA rB) s = .next t ∧ WritesOnly rD s t ∧
    (t.ux rD : Int) = ((s.ux rA : Int) - s.ux rB) % ((2 ^ s.width : Nat) : Int)) ∧
  ∀ rD rA rB : Reg, EncodedAs (.sub rD rA rB) .sub 0xC9
    [BitVec.ofNat 8 (16 * rB.val + rA.val), BitVec.ofNat 8 rD.val]

/-- NEG_ADD_IMM (R145), with its frame (R141) and its bytes (R111). -/
def Obligations.NegAddImmSubtractsTheRegister : Prop :=
  (∀ (s : State) (rD rS : Reg) (imm : Imm), ∃ t, exec (.negAddImm rD rS imm) s = .next t ∧ WritesOnly rD s t ∧
    (t.ux rD : Int) = ((immW s.width imm : Int) - s.ux rS) % ((2 ^ s.width : Nat) : Int)) ∧
  ∀ (rD rS : Reg) (imm : Imm), EncodedAs (.negAddImm rD rS imm) .negAddImm 0x9A
    (BitVec.ofNat 8 (16 * rS.val + rD.val) :: immBytes imm)

/-- MUL (R146), with its frame (R141) and its bytes (R111). -/
def Obligations.MulKeepsTheLowHalf : Prop :=
  (∀ (s : State) (rD rA rB : Reg), ∃ t, exec (.mul rD rA rB) s = .next t ∧ WritesOnly rD s t ∧
    t.ux rD = (s.ux rA * s.ux rB) % 2 ^ s.width) ∧
  ∀ rD rA rB : Reg, EncodedAs (.mul rD rA rB) .mul 0xCA
    [BitVec.ofNat 8 (16 * rB.val + rA.val), BitVec.ofNat 8 rD.val]

/-- MUL_UPPER_UU (R147), with its frame (R141) and its bytes (R111). -/
def Obligations.MulUpperUUKeepsTheHighHalf : Prop :=
  (∀ (s : State) (rD rA rB : Reg), ∃ t, exec (.mulUpperUU rD rA rB) s = .next t ∧ WritesOnly rD s t ∧
    t.ux rD = s.ux rA * s.ux rB / 2 ^ s.width) ∧
  ∀ rD rA rB : Reg, EncodedAs (.mulUpperUU rD rA rB) .mulUpperUU 0xD6
    [BitVec.ofNat 8 (16 * rB.val + rA.val), BitVec.ofNat 8 rD.val]

/-- MUL_UPPER_SS (R148), with its frame (R141) and its bytes (R111). -/
def Obligations.MulUpperSSKeepsTheSignedHighHalf : Prop :=
  (∀ (s : State) (rD rA rB : Reg), ∃ t, exec (.mulUpperSS rD rA rB) s = .next t ∧ WritesOnly rD s t ∧
    t.sx rD = Int.fdiv (s.sx rA * s.sx rB) ((2 ^ s.width : Nat) : Int)) ∧
  ∀ rD rA rB : Reg, EncodedAs (.mulUpperSS rD rA rB) .mulUpperSS 0xD5
    [BitVec.ofNat 8 (16 * rB.val + rA.val), BitVec.ofNat 8 rD.val]

/-- MUL_UPPER_SU (R149), with its frame (R141) and its bytes (R111). -/
def Obligations.MulUpperSUReadsTheLeftOperandSigned : Prop :=
  (∀ (s : State) (rD rA rB : Reg), ∃ t, exec (.mulUpperSU rD rA rB) s = .next t ∧ WritesOnly rD s t ∧
    t.sx rD = Int.fdiv (s.sx rA * (s.ux rB : Int)) ((2 ^ s.width : Nat) : Int)) ∧
  ∀ rD rA rB : Reg, EncodedAs (.mulUpperSU rD rA rB) .mulUpperSU 0xD7
    [BitVec.ofNat 8 (16 * rB.val + rA.val), BitVec.ofNat 8 rD.val]

/-- DIV_U (R150), with its frame (R141) and its bytes (R111). -/
def Obligations.DivUByZeroIsAllOnes : Prop :=
  (∀ (s : State) (rD rA rB : Reg), ∃ t, exec (.divU rD rA rB) s = .next t ∧ WritesOnly rD s t ∧
    t.ux rD = (if s.ux rB = 0 then 2 ^ s.width - 1 else s.ux rA / s.ux rB)) ∧
  ∀ rD rA rB : Reg, EncodedAs (.divU rD rA rB) .divU 0xCB
    [BitVec.ofNat 8 (16 * rB.val + rA.val), BitVec.ofNat 8 rD.val]

/-- DIV_S (R151), with its frame (R141) and its bytes (R111). -/
def Obligations.DivSTruncatesTowardZero : Prop :=
  (∀ (s : State) (rD rA rB : Reg), ∃ t, exec (.divS rD rA rB) s = .next t ∧ WritesOnly rD s t ∧
    t.sx rD = (if s.sx rB = 0 then -1
      else if s.sx rA = -((2 ^ (s.width - 1) : Nat) : Int) ∧ s.sx rB = -1 then -((2 ^ (s.width - 1) : Nat) : Int)
      else Int.tdiv (s.sx rA) (s.sx rB))) ∧
  ∀ rD rA rB : Reg, EncodedAs (.divS rD rA rB) .divS 0xCC
    [BitVec.ofNat 8 (16 * rB.val + rA.val), BitVec.ofNat 8 rD.val]

/-- REM_U (R152), with its frame (R141) and its bytes (R111). -/
def Obligations.RemUByZeroIsTheDividend : Prop :=
  (∀ (s : State) (rD rA rB : Reg), ∃ t, exec (.remU rD rA rB) s = .next t ∧ WritesOnly rD s t ∧
    t.ux rD = (if s.ux rB = 0 then s.ux rA else s.ux rA % s.ux rB)) ∧
  ∀ rD rA rB : Reg, EncodedAs (.remU rD rA rB) .remU 0xCD
    [BitVec.ofNat 8 (16 * rB.val + rA.val), BitVec.ofNat 8 rD.val]

/-- REM_S (R153), with its frame (R141) and its bytes (R111). -/
def Obligations.RemSTakesTheDividendsSign : Prop :=
  (∀ (s : State) (rD rA rB : Reg), ∃ t, exec (.remS rD rA rB) s = .next t ∧ WritesOnly rD s t ∧
    t.sx rD = (if s.sx rB = 0 then s.sx rA
      else if s.sx rA = -((2 ^ (s.width - 1) : Nat) : Int) ∧ s.sx rB = -1 then 0
      else s.sx rA - s.sx rB * Int.tdiv (s.sx rA) (s.sx rB)) ∧
    (0 ≤ s.sx rA → 0 ≤ t.sx rD) ∧ (s.sx rA ≤ 0 → t.sx rD ≤ 0)) ∧
  ∀ rD rA rB : Reg, EncodedAs (.remS rD rA rB) .remS 0xCE
    [BitVec.ofNat 8 (16 * rB.val + rA.val), BitVec.ofNat 8 rD.val]

/-- AND (R174), with its frame (R141) and its bytes (R111). -/
def Obligations.AndIsBitwise : Prop :=
  (∀ (s : State) (rD rA rB : Reg), ∃ t, exec (.and rD rA rB) s = .next t ∧ WritesOnly rD s t ∧
    ∀ n, (t.ux rD).testBit n = ((s.ux rA).testBit n && (s.ux rB).testBit n)) ∧
  ∀ rD rA rB : Reg, EncodedAs (.and rD rA rB) .and 0xD2
    [BitVec.ofNat 8 (16 * rB.val + rA.val), BitVec.ofNat 8 rD.val]

/-- OR (R175), with its frame (R141) and its bytes (R111). -/
def Obligations.OrIsBitwise : Prop :=
  (∀ (s : State) (rD rA rB : Reg), ∃ t, exec (.or rD rA rB) s = .next t ∧ WritesOnly rD s t ∧
    ∀ n, (t.ux rD).testBit n = ((s.ux rA).testBit n || (s.ux rB).testBit n)) ∧
  ∀ rD rA rB : Reg, EncodedAs (.or rD rA rB) .or 0xD4
    [BitVec.ofNat 8 (16 * rB.val + rA.val), BitVec.ofNat 8 rD.val]

/-- XOR (R176), with its frame (R141) and its bytes (R111). -/
def Obligations.XorIsBitwise : Prop :=
  (∀ (s : State) (rD rA rB : Reg), ∃ t, exec (.xor rD rA rB) s = .next t ∧ WritesOnly rD s t ∧
    ∀ n, (t.ux rD).testBit n = ((s.ux rA).testBit n ^^ (s.ux rB).testBit n)) ∧
  ∀ rD rA rB : Reg, EncodedAs (.xor rD rA rB) .xor 0xD3
    [BitVec.ofNat 8 (16 * rB.val + rA.val), BitVec.ofNat 8 rD.val]

/-- SHL (R178), with its frame (R141) and its bytes (R111). -/
def Obligations.ShlTakesTheAmountModuloWidth : Prop :=
  (∀ (s : State) (rD rA rB : Reg), ∃ t, exec (.shl rD rA rB) s = .next t ∧ WritesOnly rD s t ∧
    t.ux rD = (s.ux rA * 2 ^ (s.ux rB % s.width)) % 2 ^ s.width) ∧
  ∀ rD rA rB : Reg, EncodedAs (.shl rD rA rB) .shl 0xCF
    [BitVec.ofNat 8 (16 * rB.val + rA.val), BitVec.ofNat 8 rD.val]

/-- SHR (R179), with its frame (R141) and its bytes (R111). -/
def Obligations.ShrTakesTheAmountModuloWidth : Prop :=
  (∀ (s : State) (rD rA rB : Reg), ∃ t, exec (.shr rD rA rB) s = .next t ∧ WritesOnly rD s t ∧
    t.ux rD = s.ux rA / 2 ^ (s.ux rB % s.width)) ∧
  ∀ rD rA rB : Reg, EncodedAs (.shr rD rA rB) .shr 0xD0
    [BitVec.ofNat 8 (16 * rB.val + rA.val), BitVec.ofNat 8 rD.val]

/-- SAR (R180), with its frame (R141) and its bytes (R111). -/
def Obligations.SarTakesTheAmountModuloWidth : Prop :=
  (∀ (s : State) (rD rA rB : Reg), ∃ t, exec (.sar rD rA rB) s = .next t ∧ WritesOnly rD s t ∧
    t.sx rD = Int.fdiv (s.sx rA) ((2 ^ (s.ux rB % s.width) : Nat) : Int)) ∧
  ∀ rD rA rB : Reg, EncodedAs (.sar rD rA rB) .sar 0xD1
    [BitVec.ofNat 8 (16 * rB.val + rA.val), BitVec.ofNat 8 rD.val]

/-- SHL_IMM (R181), with its frame (R141) and its bytes (R111). -/
def Obligations.ShlImmShiftsTheRegister : Prop :=
  (∀ (s : State) (rD rS : Reg) (imm : Imm), ∃ t, exec (.shlImm rD rS imm) s = .next t ∧ WritesOnly rD s t ∧
    t.ux rD = (s.ux rS * 2 ^ (immW s.width imm % s.width)) % 2 ^ s.width) ∧
  ∀ (rD rS : Reg) (imm : Imm), EncodedAs (.shlImm rD rS imm) .shlImm 0x97
    (BitVec.ofNat 8 (16 * rS.val + rD.val) :: immBytes imm)

/-- SHR_IMM (R182), with its frame (R141) and its bytes (R111). -/
def Obligations.ShrImmShiftsTheRegister : Prop :=
  (∀ (s : State) (rD rS : Reg) (imm : Imm), ∃ t, exec (.shrImm rD rS imm) s = .next t ∧ WritesOnly rD s t ∧
    t.ux rD = s.ux rS / 2 ^ (immW s.width imm % s.width)) ∧
  ∀ (rD rS : Reg) (imm : Imm), EncodedAs (.shrImm rD rS imm) .shrImm 0x98
    (BitVec.ofNat 8 (16 * rS.val + rD.val) :: immBytes imm)

/-- SAR_IMM (R183), with its frame (R141) and its bytes (R111). -/
def Obligations.SarImmShiftsTheRegister : Prop :=
  (∀ (s : State) (rD rS : Reg) (imm : Imm), ∃ t, exec (.sarImm rD rS imm) s = .next t ∧ WritesOnly rD s t ∧
    t.sx rD = Int.fdiv (s.sx rS) ((2 ^ (immW s.width imm % s.width) : Nat) : Int)) ∧
  ∀ (rD rS : Reg) (imm : Imm), EncodedAs (.sarImm rD rS imm) .sarImm 0x99
    (BitVec.ofNat 8 (16 * rS.val + rD.val) :: immBytes imm)

/-- SHL_IMM_ALT (R184), with its frame (R141) and its bytes (R111). -/
def Obligations.ShlImmAltShiftsTheImmediate : Prop :=
  (∀ (s : State) (rD rS : Reg) (imm : Imm), ∃ t, exec (.shlImmAlt rD rS imm) s = .next t ∧ WritesOnly rD s t ∧
    t.ux rD = (immW s.width imm * 2 ^ (s.ux rS % s.width)) % 2 ^ s.width) ∧
  ∀ (rD rS : Reg) (imm : Imm), EncodedAs (.shlImmAlt rD rS imm) .shlImmAlt 0x9B
    (BitVec.ofNat 8 (16 * rS.val + rD.val) :: immBytes imm)

/-- SHR_IMM_ALT (R185), with its frame (R141) and its bytes (R111). -/
def Obligations.ShrImmAltShiftsTheImmediate : Prop :=
  (∀ (s : State) (rD rS : Reg) (imm : Imm), ∃ t, exec (.shrImmAlt rD rS imm) s = .next t ∧ WritesOnly rD s t ∧
    t.ux rD = immW s.width imm / 2 ^ (s.ux rS % s.width)) ∧
  ∀ (rD rS : Reg) (imm : Imm), EncodedAs (.shrImmAlt rD rS imm) .shrImmAlt 0x9C
    (BitVec.ofNat 8 (16 * rS.val + rD.val) :: immBytes imm)

/-- SAR_IMM_ALT (R186), with its frame (R141) and its bytes (R111). -/
def Obligations.SarImmAltShiftsTheImmediate : Prop :=
  (∀ (s : State) (rD rS : Reg) (imm : Imm), ∃ t, exec (.sarImmAlt rD rS imm) s = .next t ∧ WritesOnly rD s t ∧
    t.sx rD = Int.fdiv imm.toInt ((2 ^ (s.ux rS % s.width) : Nat) : Int)) ∧
  ∀ (rD rS : Reg) (imm : Imm), EncodedAs (.sarImmAlt rD rS imm) .sarImmAlt 0x9D
    (BitVec.ofNat 8 (16 * rS.val + rD.val) :: immBytes imm)

/-- The division identity (R154, which the spec marks as derived), over the machine's own instructions. -/
def Obligations.DivisionIdentityHolds : Prop :=
  ∀ (s tq tr uq ur : State) (rD rA rB : Reg),
    exec (.divS rD rA rB) s = .next tq → exec (.remS rD rA rB) s = .next tr →
    exec (.divU rD rA rB) s = .next uq → exec (.remU rD rA rB) s = .next ur →
    (s.sx rB ≠ 0 → ¬(s.sx rA = -((2 ^ (s.width - 1) : Nat) : Int) ∧ s.sx rB = -1) →
      s.sx rA = s.sx rB * tq.sx rD + tr.sx rD ∧ |tr.sx rD| < |s.sx rB|) ∧
    (s.sx rA = -((2 ^ (s.width - 1) : Nat) : Int) → s.sx rB = -1 →
      ((2 ^ s.width : Nat) : Int) ∣ s.sx rA - (s.sx rB * tq.sx rD + tr.sx rD)) ∧
    (s.ux rB ≠ 0 → s.ux rA = s.ux rB * uq.ux rD + ur.ux rD ∧ ur.ux rD < s.ux rB)

/-- R172's derived equality, with the sign extension of R87. -/
def Obligations.ImmediateAmountIsTheUnsignedViewModuloWidth : Prop :=
  ∀ (s : State) (imm : Imm),
    immW s.width imm % s.width = imm.toNat % s.width ∧ sView s.width (immW s.width imm) = imm.toInt

/-- The dual view (R22). -/
def Obligations.RegisterWriteChangesBothViewsOfOneRegister : Prop :=
  ∀ (rf : RegFile) (r : Reg) (z : Int),
    ((rf.write r z).ux r : Int) = z % ((2 ^ rf.width : Nat) : Int) ∧
    (∀ q, (rf.write r z).sx q =
      if (rf.write r z).ux q < 2 ^ (rf.width - 1) then ((rf.write r z).ux q : Int)
      else ((rf.write r z).ux q : Int) - ((2 ^ rf.width : Nat) : Int)) ∧
    (∀ q, q ≠ r → (rf.write r z).ux q = rf.ux q ∧ (rf.write r z).sx q = rf.sx q) ∧
    (rf.write r z).width = rf.width

/-- Marshalling out (R25). -/
def Obligations.MarshalOutIsLittleEndianInIndexOrder : Prop :=
  ∀ rf : RegFile, rf.getBytes.length = 13 * (rf.width / 8) ∧
    ∀ (i : Reg) (k : Nat), k < rf.width / 8 →
      rf.getBytes[i.val * (rf.width / 8) + k]? = some (BitVec.ofNat 8 (rf.ux i / 2 ^ (8 * k) % 256))

/-- Marshalling in (R26) and the inverse the spec derives, and the handler's writes of registers (R208). The host's moves are
log entries 12 and 13, and the name of the refusal is log entry 28. -/
def Obligations.MarshalInIsTheInverse : Prop :=
  ∀ (rf : RegFile) (bytes : List Byte),
    (bytes.length = 13 * (rf.width / 8) → ∃ rf', rf.setFromBytes bytes = some rf' ∧ rf'.width = rf.width ∧
      ∀ i : Reg, rf'.ux i = littleEndian ((bytes.drop (i.val * (rf.width / 8))).take (rf.width / 8))) ∧
    (bytes.length ≠ 13 * (rf.width / 8) → rf.setFromBytes bytes = none ∧
      ∀ (d : HostDescriptor) (s : State), s.regs = rf → s.hostPhase = .handling →
        hostMove d s (.setFromBytes bytes) = .refused (.marshalLength bytes.length)) ∧
    rf.setFromBytes rf.getBytes = some rf ∧
    (∀ (s : State) (rest : List HostMove), s.HandlerMoves (.setFromBytes bytes) rest →
      bytes.length = 13 * (s.width / 8) → ∃ t, step s = .next t ∧ WritesRegistersOnly rest s t ∧ t.width = s.width ∧
        ∀ i : Reg, t.ux i = littleEndian ((bytes.drop (i.val * (s.width / 8))).take (s.width / 8))) ∧
    ∀ (s : State) (r : Reg) (z : Int) (rest : List HostMove), s.HandlerMoves (.setReg r z) rest →
      ∃ t, step s = .next t ∧ WritesRegistersOnly rest s t ∧ t.width = s.width ∧
        (t.ux r : Int) = z % ((2 ^ s.width : Nat) : Int) ∧ ∀ q, q ≠ r → t.ux q = s.ux q

/-- Gas.sub (R29). -/
def Obligations.GasSubClampsOnUnderflow : Prop :=
  ∀ (gas : BitVec 64) (amount : Nat),
    (gas.toNat < amount → gasSub gas amount = (0, true)) ∧
    (amount ≤ gas.toNat → (gasSub gas amount).2 = false ∧ (gasSub gas amount).1.toNat = gas.toNat - amount)

/-- The gas counter is monotone (R28). -/
def Obligations.GasNeverIncreases : Prop :=
  ∀ s t : State, step s = .next t →
    t.gas.toNat ≤ s.gas.toNat ∧
    (s.status = .running → t.gas = (gasSub s.gas s.cost).1) ∧
    ∀ k, s.status = .awaitingHostCall k → t.gas = s.gas ∨
      (∃ d, hostDescriptor s.params k = some d ∧ s.hostMoves = .charge :: t.hostMoves ∧
        t.gas = (gasSub s.gas (hostCost d s.regs)).1) ∨
      ∃ amount, s.hostMoves = .spendGas amount :: t.hostMoves ∧ t.gas = (gasSub s.gas amount).1

/-- The forward table (R75) and the instruction-start invariant (R77). -/
def Obligations.ForwardIsTheLeastDistanceToAStart : Prop :=
  ∀ (p : Program) (i : Nat), i ≤ p.code.length →
    i + p.forward i ≤ p.code.length ∧
    (i + p.forward i = p.code.length ∨ p.mask.getD (i + p.forward i) false = true) ∧
    (∀ k, k < p.forward i → i + k ≠ p.code.length ∧ p.mask.getD (i + k) false = false) ∧
    (p.forward i = 0 ↔ p.isStart i = true ∨ i = p.code.length) ∧
    (i < p.code.length → (p.isStart i = true ↔ p.forward i = 0))

/-- The walking property of R78. -/
def Obligations.InstructionEndsAtTheNextStart : Prop :=
  ∀ (p : Program) (pc : Nat),
    (pc < p.code.length → 1 ≤ p.skip pc ∧ pc + p.skip pc ≤ p.code.length ∧
      (p.isStart (pc + p.skip pc) = true ∨ pc + p.skip pc = p.code.length) ∧
      ∀ k, 0 < k → k < p.skip pc → p.isStart (pc + k) = false) ∧
    (p.code.length ≤ pc → p.skip pc = 1)

/-- The backward table (R76). -/
def Obligations.BackwardIsTheLeastDistanceToAStart : Prop :=
  ∀ (p : Program) (i : Nat), i < p.code.length →
    (∀ k, p.backward i = some k ↔ k ≤ i ∧ p.mask.getD (i - k) false = true ∧
      ∀ j, j < k → p.mask.getD (i - j) false = false) ∧
    (p.backward i = none ↔ ∀ j, j ≤ i → p.isStart j = false)

/-- Opcode fetch (R80). -/
def Obligations.FetchFallsBackToTrap : Prop :=
  ∀ (m : OpcodeMap) (p : Program) (pc : Nat),
    (∀ (b : Byte), pc < p.code.length → p.mask.getD pc false = true → p.code[pc]? = some b →
      (∀ op, m.lookup b = some op → fetch m p pc = op) ∧ ((∀ e ∈ m, e.1 ≠ b) → fetch m p pc = .trap)) ∧
    (p.code.length ≤ pc ∨ p.mask.getD pc false = false → fetch m p pc = .trap) ∧
    Op.shape .trap = .noArguments

/-- The two clamps (R84, R85), the fields of NO_ARGUMENTS and of every shape with a register (R92, R96 to R104), the
ignored high nibble of R108, the decode result (R106), and the operand roles (R140, R170; log entry 18). -/
def Obligations.RegisterAndLengthNibblesAreClamped : Prop :=
  (∀ n : Nat, n ≤ 15 →
    (n ≤ 12 → (clampR n).val = n) ∧ (12 < n → (clampR n).val = 12) ∧
    (n ≤ 4 → clampL n = n) ∧ (4 < n → clampL n = 4)) ∧
  (∀ (p : Program) (pc b1 b2 l : Nat), b1 = (p.codeByte (pc + 1)).toNat → b2 = (p.codeByte (pc + 2)).toNat →
    l = p.skip pc - 1 →
    let imm := fun (i n : Nat) => imm32 (p.slice (pc + i) n)
    decodeArgs p pc .noArguments = .noArguments ∧
    decodeArgs p pc .oneRegisterOneImmediate = .oneRegisterOneImmediate (clampR (b1 % 16)) (imm 2 (min 4 (l - 1))) ∧
    (∀ n, n = clampL (b1 / 16) → decodeArgs p pc .oneRegisterTwoImmediates =
      .oneRegisterTwoImmediates (clampR (b1 % 16)) (imm 2 n) (imm (2 + n) (min 4 (l - 1 - n)))) ∧
    (∀ n, n = clampL (b1 / 16) → decodeArgs p pc .oneRegisterOneImmediateOneOffset =
      .oneRegisterOneImmediateOneOffset (clampR (b1 % 16)) (imm 2 n) (imm (2 + n) (min 4 (l - 1 - n)))
        (BitVec.ofInt 32 ((pc : Int) + (imm (2 + n) (min 4 (l - 1 - n))).toInt))) ∧
    decodeArgs p pc .oneRegisterOneExtendedWidthImmediate =
      .oneRegisterOneExtendedWidthImmediate (clampR (b1 % 16)) (imm64 (p.slice (pc + 2) (min 8 (l - 1)))) ∧
    decodeArgs p pc .twoRegisters = .twoRegisters (clampR (b1 / 16)) (clampR (b1 % 16)) ∧
    decodeArgs p pc .twoRegistersOneImmediate =
      .twoRegistersOneImmediate (clampR (b1 / 16)) (clampR (b1 % 16)) (imm 2 (min 4 (l - 1))) ∧
    decodeArgs p pc .twoRegistersOneOffset =
      .twoRegistersOneOffset (clampR (b1 / 16)) (clampR (b1 % 16)) (imm 2 (min 4 (l - 1)))
        (BitVec.ofInt 32 ((pc : Int) + (imm 2 (min 4 (l - 1))).toInt)) ∧
    (∀ n, n = clampL (b2 % 16) → decodeArgs p pc .twoRegistersTwoImmediates =
      .twoRegistersTwoImmediates (clampR (b1 / 16)) (clampR (b1 % 16)) (imm 3 n) (imm (3 + n) (min 4 (l - 2 - n)))) ∧
    decodeArgs p pc .threeRegisters =
      .threeRegisters (clampR (b1 / 16)) (clampR (b1 % 16)) (clampR (b2 % 16))) ∧
  (∀ (p q : Program) (pc : Nat), p.codeByte (pc + 1) = q.codeByte (pc + 1) →
    (p.codeByte (pc + 2)).toNat % 16 = (q.codeByte (pc + 2)).toNat % 16 →
    decodeArgs p pc .threeRegisters = decodeArgs q pc .threeRegisters) ∧
  (∀ (m : OpcodeMap) (p : Program) (pc : Nat),
    (decode m p pc).op = fetch m p pc ∧ (decode m p pc).skip = p.skip pc ∧
    (decode m p pc).instr = (fetch m p pc).instr (decodeArgs p pc (fetch m p pc).shape)) ∧
  ∀ (a b c : Reg) (imm : Imm), Op.instr .trap .noArguments = .trap ∧ Op.instr .ecalli (.oneImmediate imm) = .ecalli imm ∧
    Op.instr .shlImm (.twoRegistersOneImmediate a b imm) = .shlImm b a imm ∧
    Op.instr .shrImm (.twoRegistersOneImmediate a b imm) = .shrImm b a imm ∧
    Op.instr .sarImm (.twoRegistersOneImmediate a b imm) = .sarImm b a imm ∧
    Op.instr .negAddImm (.twoRegistersOneImmediate a b imm) = .negAddImm b a imm ∧
    Op.instr .shlImmAlt (.twoRegistersOneImmediate a b imm) = .shlImmAlt b a imm ∧
    Op.instr .shrImmAlt (.twoRegistersOneImmediate a b imm) = .shrImmAlt b a imm ∧
    Op.instr .sarImmAlt (.twoRegistersOneImmediate a b imm) = .sarImmAlt b a imm ∧
    Op.instr .add (.threeRegisters a b c) = .add c b a ∧ Op.instr .sub (.threeRegisters a b c) = .sub c b a ∧
    Op.instr .mul (.threeRegisters a b c) = .mul c b a ∧ Op.instr .divU (.threeRegisters a b c) = .divU c b a ∧
    Op.instr .divS (.threeRegisters a b c) = .divS c b a ∧ Op.instr .remU (.threeRegisters a b c) = .remU c b a ∧
    Op.instr .remS (.threeRegisters a b c) = .remS c b a ∧ Op.instr .shl (.threeRegisters a b c) = .shl c b a ∧
    Op.instr .shr (.threeRegisters a b c) = .shr c b a ∧ Op.instr .sar (.threeRegisters a b c) = .sar c b a ∧
    Op.instr .and (.threeRegisters a b c) = .and c b a ∧ Op.instr .xor (.threeRegisters a b c) = .xor c b a ∧
    Op.instr .or (.threeRegisters a b c) = .or c b a ∧ Op.instr .mulUpperSS (.threeRegisters a b c) = .mulUpperSS c b a ∧
    Op.instr .mulUpperUU (.threeRegisters a b c) = .mulUpperUU c b a ∧ Op.instr .mulUpperSU (.threeRegisters a b c) = .mulUpperSU c b a

/-- The immediate decoders (R86, R89), the code bytes they are given (R82, R91), the shapes without a register (R93 to R95),
and the offset targets (R105). That the first bytes are kept is the round trip of R88. -/
def Obligations.ImmediateKeepsItsBytesAndPads : Prop :=
  (∀ (bytes : List Byte) (last : Byte), bytes.length ≤ 3 →
    bytesLE (imm32 (bytes ++ [last])) =
      bytes ++ [last] ++ List.replicate (3 - bytes.length) (if 0x80 ≤ last.toNat then 0xFF else 0x00)) ∧
  imm32 [] = 0 ∧
  (∀ bytes : List Byte, bytes.length ≤ 8 → (imm64 bytes).toNat = littleEndian bytes) ∧
  (∀ (p : Program) (i : Nat), (i < p.code.length → p.code[i]? = some (p.codeByte i)) ∧
    (p.code.length ≤ i → p.codeByte i = 0) ∧
    ∀ n, (p.slice i n).length = min n (p.code.length - i) ∧
      ∀ k, k < (p.slice i n).length → (p.slice i n)[k]? = p.code[i + k]?) ∧
  (∀ (p : Program) (pc before k : Nat), k < p.skip pc - 1 - before → pc + 1 + before + k < pc + p.skip pc) ∧
  (∀ (p : Program) (pc l n : Nat), l = p.skip pc - 1 → n = clampL ((p.codeByte (pc + 1)).toNat % 16) →
    decodeArgs p pc .oneImmediate = .oneImmediate (imm32 (p.slice (pc + 1) (min 4 l))) ∧
    decodeArgs p pc .twoImmediates =
      .twoImmediates (imm32 (p.slice (pc + 2) n)) (imm32 (p.slice (pc + 2 + n) (min 4 (l - 1 - n)))) ∧
    decodeArgs p pc .oneOffset = .oneOffset (imm32 (p.slice (pc + 1) (min 4 l)))
      (offsetTarget pc (imm32 (p.slice (pc + 1) (min 4 l)))) ∧
    (∃ r imm offset, decodeArgs p pc .oneRegisterOneImmediateOneOffset =
      .oneRegisterOneImmediateOneOffset r imm offset (offsetTarget pc offset)) ∧
    ∃ a b offset, decodeArgs p pc .twoRegistersOneOffset = .twoRegistersOneOffset a b offset (offsetTarget pc offset)) ∧
  ∀ (pc : Nat) (offset : Imm), ((offsetTarget pc offset).toNat : Int) = ((pc : Int) + offset.toInt) % ((2 ^ 32 : Nat) : Int)

/-- The equivalence R86 derives, the round trip R88 derives, and the shortest bytes of R111. -/
def Obligations.ImmediateReadsAsTheSignedBytes : Prop :=
  (∀ bytes : List Byte, 1 ≤ bytes.length → bytes.length ≤ 4 →
    (imm32 bytes).toInt = sView (8 * bytes.length) (littleEndian bytes) ∧
    (bytesLE (imm32 bytes)).take bytes.length = bytes) ∧
  (∀ k : Imm, (immBytes k).length ≤ 4 ∧ imm32 (immBytes k) = k ∧
    ∀ bytes : List Byte, bytes.length ≤ 4 → imm32 bytes = k →
      (immBytes k).length ≤ bytes.length ∧ (bytes.length = (immBytes k).length → bytes = immBytes k)) ∧
  immBytes 0 = []

/-- Decode and encode agree for every instruction, under every well-formed opcode map. -/
def Obligations.DecodingUndoesEncoding : Prop :=
  ∀ (m : OpcodeMap) (i : Instr) (bytes : List Byte) (p : Program) (pc : Nat),
    m.WellFormed → encodeWith m i = some bytes → p.Holds pc bytes →
    (decode m p pc).instr = i ∧ (decode m p pc).op = i.op ∧ (decode m p pc).skip = bytes.length

/-- Example words of 95_test_vectors.md, hand-written. -/
def Obligations.ReferenceWordsDecode : Prop :=
  (decode referenceMap (singleProgram [0xC8, 0x12, 0x03]) 0).instr = .add 3 2 1 ∧
  (decode referenceMap (singleProgram [0xC8, 0xFD, 0x0E]) 0).instr = .add 12 12 12 ∧
  (decode referenceMap (singleProgram [0x9A, 0x12, 0x05]) 0).instr = .negAddImm 2 1 5 ∧
  (decode referenceMap (singleProgram [0x97, 0x16, 0x40]) 0).instr = .shlImm 6 1 64 ∧
  (decode referenceMap (singleProgram [0x9B, 0x12, 0x01]) 0).instr = .shlImmAlt 2 1 1 ∧
  (decode referenceMap (singleProgram [0xD2, 0x21, 0x03]) 0).instr = .and 3 1 2 ∧
  (decode referenceMap (singleProgram [0x0A, 0xFF]) 0).instr = .ecalli 0xFFFFFFFF ∧
  (decode referenceMap (singleProgram [0x00]) 0).instr = .trap ∧
  (decode referenceMap (singleProgram [0xFF, 0x12, 0x03]) 0).instr = .trap

/-- The source's round-trip property (L1-1) for the reference codec. -/
def Obligations.ImageDecodingUndoesEncoding : Prop :=
  ∀ (p : Program) (z : Nat), p.WellFormed → z ≤ 4 → p.jumpTable.length < 2 ^ 64 →
    (∀ entry ∈ p.jumpTable, entry.toNat < 256 ^ z) → (z = 0 → p.jumpTable = []) →
    decodeImage .reference (encodeImage z p) = .ok p

/-- The image layout (R70, R72), the mask's bit order (R73, which the spec marks as derived), and DecodeFault (R74), which an
image raises exactly when it is not accepted. -/
def Obligations.ImageIsAcceptedExactlyWhenItsSectionsFit : Prop :=
  ∀ (codec : VarintCodec) (image : List Byte),
    ((∃ p, decodeImage codec image = .ok p) ↔
      ∃ n z rest L body, readVarint codec image = some (n, z :: rest) ∧ readVarint codec rest = some (L, body) ∧
        z.toNat ≤ 4 ∧ L < 2 ^ 32 ∧ body.length = n * z.toNat + L + (L + 7) / 8) ∧
    ∀ n z rest L body p, readVarint codec image = some (n, z :: rest) → readVarint codec rest = some (L, body) →
      decodeImage codec image = .ok p →
      p.code = (body.drop (n * z.toNat)).take L ∧ p.code.length = L ∧ p.mask.length = L ∧
      (∀ i, i < L → p.mask[i]? = (body[n * z.toNat + L + i / 8]?).map fun b => (b.toNat / 2 ^ (i % 8) % 2 == 1)) ∧
      p.jumpTable.length = (if z.toNat = 0 then 0 else n) ∧
      ∀ k, k < p.jumpTable.length →
        p.jumpTable[k]? = some (BitVec.ofNat 32 (littleEndian ((body.drop (k * z.toNat)).take z.toNat)))

/-- One step of an instance (R120). -/
def Obligations.StepRunsTheDecodedInstruction : Prop :=
  ∀ (s : State) (i : Instr) (op : Op), s.status = .running →
    (decode s.params.opcodeMap s.program s.pc.toNat).instr = i →
    (decode s.params.opcodeMap s.program s.pc.toNat).op = op →
    (gasCost s.params.gasCost op s.regs ≤ s.gas.toNat →
      step s = exec i { s with gas := s.gas - BitVec.ofNat 64 (gasCost s.params.gasCost op s.regs) }) ∧
    (s.gas.toNat < gasCost s.params.gasCost op s.regs → step s = .next { s with gas := 0, status := .outOfGas })

/-- The gas check (R123). -/
def Obligations.UnpaidInstructionHasNoEffect : Prop :=
  ∀ s : State, s.status = .running → s.gas.toNat < s.cost →
    ∃ t, step s = .next t ∧ t.status = .outOfGas ∧ t.gas = 0 ∧ t.pc = s.pc ∧ t.hostPhase = s.hostPhase ∧
      KeepsRegisters s t ∧ KeepsMachine s t

/-- The invalid opcode (R128) and the end of code (R131). -/
def Obligations.InvalidFetchPanicsInPlace : Prop :=
  ∀ s : State, s.status = .running →
    (s.program.isStart s.pc.toNat = false ∨ ∀ e ∈ s.params.opcodeMap, e.1 ≠ s.program.codeByte s.pc.toNat) →
    gasCost s.params.gasCost .trap s.regs ≤ s.gas.toNat →
    ∃ t, step s = .next t ∧ t.status = .panicked ∧ t.pc = s.pc ∧
      t.gas.toNat = s.gas.toNat - gasCost s.params.gasCost .trap s.regs ∧ KeepsRegisters s t ∧ KeepsMachine s t

/-- The causes of R201 and no others, with the resume (R210) and the halt (R211). The host's moves are log entries 12 and 13;
that an overspending handler counts as one that returned `haltRequested` is the model's reading, log entry 14. -/
def Obligations.EventsHaveOnlyTheirCauses : Prop :=
  ∀ s t : State, step s = .next t →
    (t.status = .panicked → s.status = .running ∧ s.decoded.op = .trap ∧ s.cost ≤ s.gas.toNat) ∧
    (t.status = .outOfGas → (s.status = .running ∧ s.gas.toNat < s.cost) ∨
      (∃ k d, s.status = .awaitingHostCall k ∧ hostDescriptor s.params k = some d ∧ s.gas.toNat < hostCost d s.regs ∧
        s.hostPhase = .pending ∧ s.hostMoves = .charge :: t.hostMoves)) ∧
    (∀ k, t.status = .awaitingHostCall k →
      (s.status = .running ∧ s.decoded.instr = .ecalli k ∧ s.cost ≤ s.gas.toNat) ∨ s.status = .awaitingHostCall k) ∧
    (t.status = .halted →
      s.Suspended ∧ s.hostPhase = .returned .haltRequested ∧ s.hostMoves = .halt :: t.hostMoves) ∧
    (t.status = .running →
      (s.status = .running ∧ s.decoded.op ≠ .trap ∧ s.decoded.op ≠ .ecalli ∧ s.cost ≤ s.gas.toNat) ∨
      (s.Suspended ∧ s.hostPhase = .returned .normal ∧ s.hostMoves = .resume :: t.hostMoves))

/-- The terminal statuses and the suspension (R30); the names of the stops are log entries 16 and 17. -/
def Obligations.EndedInstancesTakeNoStep : Prop :=
  ∀ s : State,
    (s.status = .halted → step s = .fault .endedHalted) ∧
    (s.status = .panicked → step s = .fault .endedPanicked) ∧
    (s.status = .outOfGas → step s = .fault .endedOutOfGas) ∧
    ∀ (k : BitVec 32) (d : HostDescriptor), s.status = .awaitingHostCall k → hostDescriptor s.params k = some d →
      s.hostMoves = [] → step s = .fault (.awaitingHost k)

/-- Instruction-fetch coherence (R62). -/
def Obligations.CodeIsNeverWritten : Prop :=
  ∀ s t : State, step s = .next t → t.program = s.program ∧ t.params = s.params ∧
    ∀ pc, decode t.params.opcodeMap t.program pc = decode s.params.opcodeMap s.program pc

/-- No instruction accesses data memory (R56) or the jump table (R37). -/
def Obligations.InstructionsNeitherReadNorWriteDataMemory : Prop :=
  ∀ (s t : State) (m : Memory) (rules : List FaultRule) (table : List (BitVec 32)),
    s.status = .running → step s = .next t →
    (∀ a, Memory.read t.memory a = Memory.read s.memory a) ∧ t.memoryFaults = s.memoryFaults ∧
    step { s with memory := m, memoryFaults := rules, program := { s.program with jumpTable := table } } =
      .next { t with memory := m, memoryFaults := rules, program := { t.program with jumpTable := table } }

/-- The machine's invariant (`State.Inv`); memory's canonical form is the model's (log entry 15). -/
def Obligations.InvariantIsKeptByEveryStep : Prop :=
  ∀ s t : State, s.Inv → step s = .next t → t.Inv

/-- The state before launch; its values are the model's choices (log entries 2 to 8, 10 to 13, 15), not rules of the spec. -/
def Obligations.ResetMeetsTheInvariant : Prop :=
  State.reset.Inv ∧ State.reset.AtBoundary ∧ State.reset.status = .running ∧ State.reset.width = 64 ∧
  (∀ r, State.reset.ux r = 0) ∧ State.reset.pc = 0 ∧ State.reset.gas = 0 ∧
  State.reset.memory = [] ∧ State.reset.memoryFaults = [] ∧ (∀ a, Memory.read State.reset.memory a = none) ∧
  State.reset.program.code = [] ∧ State.reset.program.mask = [] ∧ State.reset.program.jumpTable = [] ∧
  State.reset.params = defaultParams ∧ State.reset.params.opcodeMap = referenceMap ∧
  (∀ op rf, gasCost State.reset.params.gasCost op rf = 1) ∧ State.reset.params.haltRetRegs = (7, 8) ∧
  State.reset.params.registry = [] ∧ State.reset.hostPhase = .pending ∧ State.reset.hostMoves = []

/-- Launch (R230, R231); no instance exists for an image that raises a DecodeFault (R202, R74). The invariant is the model's
own, with the canonical memory of log entry 15; the host's moves are log entries 12 and 13. -/
def Obligations.LaunchHoldsWhatTheHostSupplies : Prop :=
  ∀ a : LaunchArgs,
    (∀ p, decodeImage a.codec a.image = .ok p → ∃ s, launch a = .ok s ∧ s.program = p ∧ s.status = .running ∧
      s.regs = a.regs0 ∧ s.pc = a.pc0 ∧ s.gas = a.gas0 ∧ s.memory = a.memory0 ∧ s.memoryFaults = a.faults0 ∧
      s.params = a.params ∧ s.hostPhase = .pending ∧ s.hostMoves = a.host0 ∧
      (a.params.opcodeMap.WellFormed → Memory.wf a.memory0 → s.Inv)) ∧
    ∀ e, decodeImage a.codec a.image = .error e → launch a = .error e

/-- The pc stays at a boundary (R78, R125). -/
def Obligations.PcStaysAtABoundary : Prop :=
  ∀ s t : State, s.Inv → s.AtBoundary → step s = .next t → t.AtBoundary

/-- The bound of R121, which the spec marks as derived; the bounded `run` is log entry 27. -/
def Obligations.RunEndsWithinItsGas : Prop :=
  ∀ s : State, (∀ op rf, 1 ≤ gasCost s.params.gasCost op rf) →
    (run (s.gas.toNat + 1) s).status ≠ .running ∧
    ∀ n, s.gas.toNat + 1 ≤ n → run n s = run (s.gas.toNat + 1) s

/-- Host-call gas (R209). That a host move is a step of the machine, though the block takes none then (R207), is log entry 12;
the host's progress (`hostPhase`) is log entry 13. -/
def Obligations.HostCallIsChargedUpFront : Prop :=
  ∀ (s : State) (k : BitVec 32) (d : HostDescriptor) (rest : List HostMove),
    s.status = .awaitingHostCall k → s.hostPhase = .pending → hostDescriptor s.params k = some d →
    s.hostMoves = .charge :: rest →
    ∃ t, step s = .next t ∧ t.pc = s.pc ∧ KeepsRegisters s t ∧ t.program = s.program ∧
      (∀ a, Memory.read t.memory a = Memory.read s.memory a) ∧ t.memoryFaults = s.memoryFaults ∧
      (s.gas.toNat < hostCost d s.regs → t.status = .outOfGas ∧ t.gas = 0) ∧
      (hostCost d s.regs ≤ s.gas.toNat → t.status = .awaitingHostCall k ∧ t.hostPhase = .handling ∧
        t.gas.toNat = s.gas.toNat - hostCost d s.regs)

/-- Resume (R210), halt (R211) and the unknown host call (R212). That a host move is a step of the machine, though the
block takes none then (R207), is log entry 12; the host's progress (`hostPhase`) is log entry 13; the name of the stop is
log entry 17. -/
def Obligations.HostResumesHaltsOrIsStuck : Prop :=
  ∀ (s : State) (k : BitVec 32), s.status = .awaitingHostCall k →
    (∀ (d : HostDescriptor) (rest : List HostMove), hostDescriptor s.params k = some d →
      (s.hostPhase = .returned .normal → s.hostMoves = .resume :: rest →
        ∃ t, step s = .next t ∧ t.status = .running ∧ t.pc = s.pc ∧ t.gas = s.gas ∧ KeepsRegisters s t ∧
          t.memory = s.memory ∧ t.memoryFaults = s.memoryFaults ∧ t.program = s.program) ∧
      (s.hostPhase = .returned .haltRequested → s.hostMoves = .halt :: rest →
        ∃ t, step s = .next t ∧ t.status = .halted ∧ t.pc = s.pc ∧ t.gas = s.gas ∧ KeepsRegisters s t ∧
          t.memory = s.memory ∧ t.memoryFaults = s.memoryFaults ∧ t.program = s.program)) ∧
    ((∀ d ∈ s.params.registry, d.index ≠ k) → step s = .fault (.hostCallUnknown k))

/-- The host's liberties and duties (R208), with the handler's writes of memory (R55) and its spending of gas (R29). The moves
and their order are log entries 12 and 13, the overspending handler is log entry 14, and faults, fault rules, mapping and
unmapping of memory are log entry 15. The handler's writes of registers are in `MarshalInIsTheInverse`. -/
def Obligations.HostKeepsPcAndProgram : Prop :=
  (∀ s t : State, s.Suspended → step s = .next t →
    t.pc = s.pc ∧ t.program = s.program ∧ t.params = s.params ∧ t.gas.toNat ≤ s.gas.toNat ∧
    (s.hostPhase = .pending → s.hostMoves = .charge :: t.hostMoves) ∧
    (s.hostPhase = .handling → s.hostMoves ≠ .charge :: t.hostMoves ∧ s.hostMoves ≠ .resume :: t.hostMoves ∧
      s.hostMoves ≠ .halt :: t.hostMoves) ∧
    (s.hostPhase = .returned .normal → s.hostMoves = .resume :: t.hostMoves ∧ t.status = .running) ∧
    (s.hostPhase = .returned .haltRequested → s.hostMoves = .halt :: t.hostMoves ∧ t.status = .halted)) ∧
  (∀ (s : State) (addr : Nat) (bytes : List Byte) (rest : List HostMove), s.HandlerMoves (.store addr bytes) rest →
    ∃ t, step s = .next t ∧ WritesMemoryOnly rest addr bytes.length s t ∧
      (faultsOn s.memoryFaults .store addr bytes.length = false →
        (∀ k, k < bytes.length → ∃ b, Memory.read s.memory (addr + k) = some b) →
        ∀ k, k < bytes.length → Memory.read t.memory (addr + k) = bytes[k]?) ∧
      (faultsOn s.memoryFaults .store addr bytes.length = true ∨
        (∃ k, k < bytes.length ∧ Memory.read s.memory (addr + k) = none) →
        ∀ a, Memory.read t.memory a = Memory.read s.memory a)) ∧
  (∀ (s : State) (addr : Nat) (bytes : List Byte) (rest : List HostMove), s.HandlerMoves (.mapBytes addr bytes) rest →
    ∃ t, step s = .next t ∧ WritesMemoryOnly rest addr bytes.length s t ∧
      ∀ k, k < bytes.length → Memory.read t.memory (addr + k) = bytes[k]?) ∧
  (∀ (s : State) (addr len : Nat) (rest : List HostMove), s.HandlerMoves (.unmapBytes addr len) rest →
    ∃ t, step s = .next t ∧ WritesMemoryOnly rest addr len s t ∧
      ∀ k, k < len → Memory.read t.memory (addr + k) = none) ∧
  (∀ (s : State) (amount : Nat) (rest : List HostMove), s.HandlerMoves (.spendGas amount) rest →
    ∃ t, step s = .next t ∧ KeepsSuspension rest s t ∧ KeepsRegisters s t ∧ t.memory = s.memory ∧
      t.memoryFaults = s.memoryFaults ∧
      (amount ≤ s.gas.toNat → t.gas.toNat = s.gas.toNat - amount ∧ t.hostPhase = .handling) ∧
      (s.gas.toNat < amount → t.gas = 0 ∧ t.hostPhase = .returned .haltRequested)) ∧
  (∀ (s : State) (verdict : Verdict) (rest : List HostMove), s.HandlerMoves (.handlerReturns verdict) rest →
    ∃ t, step s = .next t ∧ KeepsSuspension rest s t ∧ KeepsRegisters s t ∧ t.memory = s.memory ∧
      t.memoryFaults = s.memoryFaults ∧ t.gas = s.gas ∧ t.hostPhase = .returned verdict) ∧
  ∀ (s : State) (rules : List FaultRule) (rest : List HostMove), s.HandlerMoves (.setFaults rules) rest →
    ∃ t, step s = .next t ∧ KeepsSuspension rest s t ∧ KeepsRegisters s t ∧ t.memory = s.memory ∧
      t.memoryFaults = rules ∧ t.gas = s.gas ∧ t.hostPhase = s.hostPhase

/-- The halt result (R213). Where a read faults, and that it does not wrap at `2^32`, is log entry 15; the default registers
are log entry 10. -/
def Obligations.HaltResultIsReadOrEmpty : Prop :=
  ∀ (s : State) (ra rl : Reg), s.params.haltRetRegs = (ra, rl) →
    (s.status = .halted → ∃ result, haltResult s = some result ∧
      (faultsOn s.memoryFaults .load (s.ux ra % 2 ^ 32) (s.ux rl % 2 ^ 32) = false →
        (∀ k, k < s.ux rl % 2 ^ 32 → ∃ b, Memory.read s.memory (s.ux ra % 2 ^ 32 + k) = some b) →
        result.length = s.ux rl % 2 ^ 32 ∧
        ∀ k, k < s.ux rl % 2 ^ 32 → result[k]? = Memory.read s.memory (s.ux ra % 2 ^ 32 + k)) ∧
      (faultsOn s.memoryFaults .load (s.ux ra % 2 ^ 32) (s.ux rl % 2 ^ 32) = true ∨
        (∃ k, k < s.ux rl % 2 ^ 32 ∧ Memory.read s.memory (s.ux ra % 2 ^ 32 + k) = none) → result = [])) ∧
    (s.status ≠ .halted → haltResult s = none) ∧
    defaultHaltRetRegs = (7, 8) ∧
    ∀ (rules : List FaultRule) (kind : AccessKind) (addr len : Nat), faultsOn rules kind addr len = true ↔
      .exactly kind addr len ∈ rules ∨ ∃ base size a, .touching kind base size ∈ rules ∧
        (addr ≤ a ∧ a < addr + len) ∧ base ≤ a ∧ a < base + size

/-- Independence of instances (R219, R40). That stepping one entry of a list leaves the others is how log entry 26 models
them; that the program stays shared is a fact about `step`. -/
def Obligations.InstancesShareOnlyTheProgram : Prop :=
  ∀ (n : Nat) (before after : List State), stepInstance n before = .next after →
    after.length = before.length ∧ (∀ j, j ≠ n → after[j]? = before[j]?) ∧
    ∀ p : Program, (∀ s ∈ before, s.program = p) → ∀ s ∈ after, s.program = p
end

