-- ==== Sys2Proof/Laws/Decode.lean ====
section
/-! SUPPORT. The decoder's helpers: little-endian assembly and its inverse, the forward scan, and that decoding does not
look at the jump table. -/

namespace Sys2Proof

@[simp] theorem bytesOf_length (n v : Nat) : (bytesOf n v).length = n := by
  induction n generalizing v with
  | zero => rfl
  | succ n ih => simp [bytesOf, ih]

theorem littleEndian_lt (bytes : List Byte) : littleEndian bytes < 256 ^ bytes.length := by
  induction bytes with
  | nil => simp [littleEndian]
  | cons b rest ih =>
    have hb : b.toNat < 256 := b.isLt
    simp only [littleEndian, List.length_cons, pow_succ]
    omega

/-- Assembling the bytes of a number gives it back, modulo what they can hold. -/
theorem littleEndian_bytesOf (n v : Nat) : littleEndian (bytesOf n v) = v % 256 ^ n := by
  induction n generalizing v with
  | zero => simp [bytesOf, littleEndian, Nat.mod_one]
  | succ n ih =>
    have h : v % 256 ^ (n + 1) = v % 256 + 256 * (v / 256 % 256 ^ n) := by
      rw [pow_succ', Nat.mod_mul]
    simp only [bytesOf, littleEndian, ih, BitVec.toNat_ofNat, h]

/-- The bytes of an assembled number are the bytes it was assembled from. -/
theorem bytesOf_littleEndian (bytes : List Byte) : bytesOf bytes.length (littleEndian bytes) = bytes := by
  induction bytes with
  | nil => rfl
  | cons b rest ih =>
    have hb : b.toNat < 256 := b.isLt
    simp only [List.length_cons, bytesOf, littleEndian]
    rw [show (b.toNat + 256 * littleEndian rest) / 256 = littleEndian rest by omega, ih]
    congr 1
    apply BitVec.eq_of_toNat_eq
    rw [BitVec.toNat_ofNat]
    omega

theorem littleEndian_append (xs ys : List Byte) :
    littleEndian (xs ++ ys) = littleEndian xs + 256 ^ xs.length * littleEndian ys := by
  induction xs with
  | nil => simp [littleEndian]
  | cons b rest ih =>
    simp only [List.cons_append, littleEndian, ih, List.length_cons, pow_succ]
    ring

/-- The forward scan depends on the program only through its instruction starts. -/
theorem Program.scanForward_congr {p q : Program} (h : ∀ i, p.isStart i = q.isStart i) (steps i : Nat) :
    p.scanForward steps i = q.scanForward steps i := by
  induction steps generalizing i with
  | zero => rfl
  | succ steps ih => simp only [Program.scanForward, h, ih]

@[simp] theorem Program.isStart_jumpTable (p : Program) (table : List (BitVec 32)) (i : Nat) :
    ({ p with jumpTable := table } : Program).isStart i = p.isStart i := rfl

@[simp] theorem Program.skip_jumpTable (p : Program) (table : List (BitVec 32)) (pc : Nat) :
    ({ p with jumpTable := table } : Program).skip pc = p.skip pc := by
  simp only [Program.skip, Program.forward, Program.scanForward_congr (p.isStart_jumpTable table)]

/-- Decoding does not look at the jump table (10_state.md R37). -/
@[simp] theorem decode_jumpTable (m : OpcodeMap) (p : Program) (table : List (BitVec 32)) (pc : Nat) :
    decode m { p with jumpTable := table } pc = decode m p pc := by
  have hargs : ∀ sh, decodeArgs { p with jumpTable := table } pc sh = decodeArgs p pc sh := by
    intro sh
    cases sh <;>
      simp only [decodeArgs, Program.immRest, Program.operandCount, Program.skip_jumpTable] <;> rfl
  simp only [decode, hargs, Program.skip_jumpTable]
  rfl

theorem immBytes_length (k : Imm) : (immBytes k).length ≤ 4 := by
  simp [immBytes, bytesLE]

end Sys2Proof
end

