-- ==== Sys2Proof/Laws/State.lean ====
section
/-! SUPPORT. What each named update of a state does to each field, and the frames as an equivalence-like relation. -/

namespace Sys2Proof.Machine

@[simp] theorem State.writeReg_params (s : State) (r : Reg) (z : Int) : (s.writeReg r z).params = s.params := rfl
@[simp] theorem State.writeReg_program (s : State) (r : Reg) (z : Int) : (s.writeReg r z).program = s.program := rfl
@[simp] theorem State.writeReg_regs (s : State) (r : Reg) (z : Int) : (s.writeReg r z).regs = s.regs.write r z := rfl
@[simp] theorem State.writeReg_pc (s : State) (r : Reg) (z : Int) : (s.writeReg r z).pc = s.pc := rfl
@[simp] theorem State.writeReg_gas (s : State) (r : Reg) (z : Int) : (s.writeReg r z).gas = s.gas := rfl
@[simp] theorem State.writeReg_status (s : State) (r : Reg) (z : Int) : (s.writeReg r z).status = s.status := rfl
@[simp] theorem State.writeReg_memory (s : State) (r : Reg) (z : Int) : (s.writeReg r z).memory = s.memory := rfl
@[simp] theorem State.writeReg_memoryFaults (s : State) (r : Reg) (z : Int) : (s.writeReg r z).memoryFaults = s.memoryFaults := rfl
@[simp] theorem State.writeReg_hostPhase (s : State) (r : Reg) (z : Int) : (s.writeReg r z).hostPhase = s.hostPhase := rfl
@[simp] theorem State.writeReg_hostMoves (s : State) (r : Reg) (z : Int) : (s.writeReg r z).hostMoves = s.hostMoves := rfl

@[simp] theorem State.raise_params (s : State) (st : Status) : (s.raise st).params = s.params := rfl
@[simp] theorem State.raise_program (s : State) (st : Status) : (s.raise st).program = s.program := rfl
@[simp] theorem State.raise_regs (s : State) (st : Status) : (s.raise st).regs = s.regs := rfl
@[simp] theorem State.raise_pc (s : State) (st : Status) : (s.raise st).pc = s.pc := rfl
@[simp] theorem State.raise_gas (s : State) (st : Status) : (s.raise st).gas = s.gas := rfl
@[simp] theorem State.raise_status (s : State) (st : Status) : (s.raise st).status = st := rfl
@[simp] theorem State.raise_memory (s : State) (st : Status) : (s.raise st).memory = s.memory := rfl
@[simp] theorem State.raise_memoryFaults (s : State) (st : Status) : (s.raise st).memoryFaults = s.memoryFaults := rfl
@[simp] theorem State.raise_hostPhase (s : State) (st : Status) : (s.raise st).hostPhase = s.hostPhase := rfl
@[simp] theorem State.raise_hostMoves (s : State) (st : Status) : (s.raise st).hostMoves = s.hostMoves := rfl

@[simp] theorem State.advance_params (s : State) : (s.advance).params = s.params := rfl
@[simp] theorem State.advance_program (s : State) : (s.advance).program = s.program := rfl
@[simp] theorem State.advance_regs (s : State) : (s.advance).regs = s.regs := rfl
@[simp] theorem State.advance_pc (s : State) : (s.advance).pc = s.pc + BitVec.ofNat 32 s.skip := rfl
@[simp] theorem State.advance_gas (s : State) : (s.advance).gas = s.gas := rfl
@[simp] theorem State.advance_status (s : State) : (s.advance).status = s.status := rfl
@[simp] theorem State.advance_memory (s : State) : (s.advance).memory = s.memory := rfl
@[simp] theorem State.advance_memoryFaults (s : State) : (s.advance).memoryFaults = s.memoryFaults := rfl
@[simp] theorem State.advance_hostPhase (s : State) : (s.advance).hostPhase = s.hostPhase := rfl
@[simp] theorem State.advance_hostMoves (s : State) : (s.advance).hostMoves = s.hostMoves := rfl

@[simp] theorem State.suspend_params (s : State) (index : BitVec 32) : (s.suspend index).params = s.params := rfl
@[simp] theorem State.suspend_program (s : State) (index : BitVec 32) : (s.suspend index).program = s.program := rfl
@[simp] theorem State.suspend_regs (s : State) (index : BitVec 32) : (s.suspend index).regs = s.regs := rfl
@[simp] theorem State.suspend_pc (s : State) (index : BitVec 32) : (s.suspend index).pc = s.pc := rfl
@[simp] theorem State.suspend_gas (s : State) (index : BitVec 32) : (s.suspend index).gas = s.gas := rfl
@[simp] theorem State.suspend_status (s : State) (index : BitVec 32) : (s.suspend index).status = .awaitingHostCall index := rfl
@[simp] theorem State.suspend_memory (s : State) (index : BitVec 32) : (s.suspend index).memory = s.memory := rfl
@[simp] theorem State.suspend_memoryFaults (s : State) (index : BitVec 32) : (s.suspend index).memoryFaults = s.memoryFaults := rfl
@[simp] theorem State.suspend_hostPhase (s : State) (index : BitVec 32) : (s.suspend index).hostPhase = .pending := rfl
@[simp] theorem State.suspend_hostMoves (s : State) (index : BitVec 32) : (s.suspend index).hostMoves = s.hostMoves := rfl

/-- A record with only its gas replaced reads the same instruction. -/
theorem State.decoded_of_gas (s : State) (g : BitVec 64) : ({ s with gas := g } : State).decoded = s.decoded := rfl

theorem KeepsMachine.refl (s : State) : KeepsMachine s s := ⟨rfl, rfl, fun _ => rfl, rfl, rfl⟩

theorem KeepsMachine.trans {s t u : State} (h : KeepsMachine s t) (k : KeepsMachine t u) : KeepsMachine s u :=
  ⟨k.params.trans h.params, k.program.trans h.program, fun a => (k.memory a).trans (h.memory a),
    k.faults.trans h.faults, k.hostMoves.trans h.hostMoves⟩

theorem KeepsRegisters.refl (s : State) : KeepsRegisters s s := ⟨rfl, fun _ => rfl⟩

theorem KeepsRegisters.trans {s t u : State} (h : KeepsRegisters s t) (k : KeepsRegisters t u) :
    KeepsRegisters s u :=
  ⟨k.width.trans h.width, fun r => (k.ux r).trans (h.ux r)⟩

/-- No instruction changes the invariant: it speaks of fields that every frame keeps. -/
theorem State.Inv_of_eq {s t : State} (hp : t.params = s.params) (hg : t.program = s.program)
    (hm : t.memory = s.memory) (h : s.Inv) : t.Inv := by
  simpa only [State.Inv, hp, hg, hm] using h

end Sys2Proof.Machine
end

