-- ==== Sys2Proof/Laws/Memory.lean ====
section
/-! SUPPORT. Data memory: a read after a write, what a write leaves alone, and that every operation keeps the canonical
form. -/

namespace Sys2Proof.Machine

@[simp] theorem Memory.read_put_same (m : Memory) (a : Nat) (b : Byte) :
    Memory.read (Memory.put m a b) a = some b := by
  induction m with
  | nil => simp [Memory.put, Memory.read]
  | cons cell rest ih =>
    obtain ⟨x, y⟩ := cell
    unfold Memory.put
    split_ifs with h1 h2
    · simp [Memory.read]
    · simp [Memory.read]
    · simpa [Memory.read, h2] using ih

theorem Memory.read_put_other (m : Memory) {a c : Nat} (b : Byte) (h : c ≠ a) :
    Memory.read (Memory.put m a b) c = Memory.read m c := by
  induction m with
  | nil => simp [Memory.put, Memory.read, h]
  | cons cell rest ih =>
    obtain ⟨x, y⟩ := cell
    unfold Memory.put
    split_ifs with h1 h2
    · simp [Memory.read, h]
    · subst h2; simp [Memory.read, h]
    · simp [Memory.read, ih]

/-- The addresses listed after a write are the old ones and the written one. -/
theorem Memory.mem_put {m : Memory} {a c : Nat} {b : Byte}
    (h : c ∈ (Memory.put m a b).map Prod.fst) : c = a ∨ c ∈ m.map Prod.fst := by
  induction m with
  | nil => simpa [Memory.put] using h
  | cons cell rest ih =>
    obtain ⟨x, y⟩ := cell
    unfold Memory.put at h
    split_ifs at h with h1 h2
    · simpa using h
    · subst h2; simp at h ⊢; tauto
    · simp only [List.map_cons, List.mem_cons] at h ⊢
      rcases h with h | h
      · tauto
      · rcases ih h with h | h <;> tauto

theorem Memory.put_wf {m : Memory} (a : Nat) (b : Byte) (h : Memory.wf m) : Memory.wf (Memory.put m a b) := by
  induction m with
  | nil => simp [Memory.wf, Memory.put]
  | cons cell rest ih =>
    obtain ⟨x, y⟩ := cell
    have hrest : Memory.wf rest := (List.pairwise_cons.mp h).2
    have hx : ∀ c ∈ rest.map Prod.fst, x < c := (List.pairwise_cons.mp h).1
    unfold Memory.put
    split_ifs with h1 h2
    · refine List.pairwise_cons.mpr ⟨fun c hc => ?_, h⟩
      rcases List.mem_cons.mp hc with hc | hc
      · exact hc ▸ h1
      · exact h1.trans (hx c hc)
    · subst h2; exact List.pairwise_cons.mpr ⟨hx, hrest⟩
    · refine List.pairwise_cons.mpr ⟨fun c hc => ?_, ih hrest⟩
      rcases Memory.mem_put hc with hc | hc
      · omega
      · exact hx c hc

theorem Memory.putAll_wf {m : Memory} (a : Nat) (bytes : List Byte) (h : Memory.wf m) :
    Memory.wf (Memory.putAll m a bytes) := by
  induction bytes generalizing m a with
  | nil => exact h
  | cons b rest ih => exact ih (a + 1) (Memory.put_wf a b h)

theorem Memory.remove_wf {m : Memory} (addr len : Nat) (h : Memory.wf m) : Memory.wf (Memory.remove m addr len) :=
  List.Pairwise.sublist (List.Sublist.map Prod.fst List.filter_sublist) h

theorem Memory.store_wf {m n : Memory} {addr : Nat} {bytes : List Byte} (h : Memory.wf m)
    (hs : Memory.store m addr bytes = some n) : Memory.wf n := by
  unfold Memory.store at hs
  split at hs
  · cases hs
  · cases hs; exact Memory.putAll_wf addr bytes h

/-- What a run of writes leaves at each address. -/
theorem Memory.read_putAll (m : Memory) (a c : Nat) (bytes : List Byte) :
    Memory.read (Memory.putAll m a bytes) c =
      if a ≤ c ∧ c < a + bytes.length then bytes[c - a]? else Memory.read m c := by
  induction bytes generalizing m a with
  | nil => simp [Memory.putAll]
  | cons b rest ih =>
    rw [Memory.putAll, ih]
    rcases Nat.lt_trichotomy c a with h | h | h
    · rw [if_neg (by omega), if_neg (by omega), Memory.read_put_other m b (by omega)]
    · subst h
      rw [if_neg (by omega), if_pos (by simp), Memory.read_put_same]; simp
    · obtain ⟨k, rfl⟩ : ∃ k, c = a + 1 + k := ⟨c - (a + 1), by omega⟩
      by_cases hk : k < rest.length
      · rw [if_pos (by omega), if_pos (by simp; omega)]
        rw [show a + 1 + k - a = k + 1 by omega, show a + 1 + k - (a + 1) = k by omega]
        simp
      · rw [if_neg (by omega), if_neg (by simp; omega), Memory.read_put_other m b (by omega)]

/-- A removed range cannot be read, and every other address reads as before. -/
theorem Memory.read_remove (m : Memory) (addr len c : Nat) :
    Memory.read (Memory.remove m addr len) c =
      if addr ≤ c ∧ c < addr + len then none else Memory.read m c := by
  unfold Memory.remove
  induction m with
  | nil => simp [Memory.read]
  | cons cell rest ih =>
    obtain ⟨x, y⟩ := cell
    by_cases hx : addr ≤ x ∧ x < addr + len
    · rw [List.filter_cons_of_neg (by simp [hx]), ih]
      by_cases hc : c = x
      · subst hc; simp [hx]
      · simp [Memory.read, hc]
    · rw [List.filter_cons_of_pos (by simp only [Bool.not_eq_true', Bool.and_eq_false_iff, decide_eq_false_iff_not]; omega)]
      by_cases hc : c = x
      · subst hc; simp [Memory.read, hx]
      · rw [Memory.read, if_neg hc, ih, Memory.read, if_neg hc]

/-- A load answers the bytes at consecutive addresses, or faults where one of them is not listed. -/
theorem Memory.load_eq_some {m : Memory} {a n : Nat} {bytes : List Byte} :
    Memory.load m a n = some bytes ↔
      bytes.length = n ∧ ∀ k, k < n → Memory.read m (a + k) = bytes[k]? := by
  induction n generalizing a bytes with
  | zero =>
    simp only [Memory.load, Option.some.injEq, Nat.not_lt_zero, IsEmpty.forall_iff, implies_true, and_true,
      List.length_eq_zero_iff]
    exact eq_comm
  | succ n ih =>
    unfold Memory.load
    constructor
    · intro h
      split at h
      · cases h
      · rename_i b hb
        obtain ⟨rest, hrest, rfl⟩ := Option.map_eq_some_iff.mp h
        obtain ⟨hlen, hread⟩ := ih.mp hrest
        refine ⟨by simp [hlen], fun k hk => ?_⟩
        cases k with
        | zero => simpa using hb
        | succ k => rw [← show a + 1 + k = a + (k + 1) by omega]; simpa using hread k (by omega)
    · rintro ⟨hlen, hread⟩
      cases bytes with
      | nil => simp at hlen
      | cons b rest =>
        have hb : Memory.read m a = some b := by simpa using hread 0 (by omega)
        have hrest : Memory.load m (a + 1) n = some rest :=
          ih.mpr ⟨by simpa using hlen, fun k hk => by
            have := hread (k + 1) (by omega)
            rw [← show a + 1 + k = a + (k + 1) by omega] at this; simpa using this⟩
        simp [hb, hrest]

/-- A request faults by the collaborator's rules exactly where one of them names it, or names an address it touches. -/
theorem faultsOn_iff (rules : List FaultRule) (kind : AccessKind) (addr len : Nat) :
    faultsOn rules kind addr len = true ↔
      .exactly kind addr len ∈ rules ∨ ∃ base size a, .touching kind base size ∈ rules ∧
        (addr ≤ a ∧ a < addr + len) ∧ base ≤ a ∧ a < base + size := by
  simp only [faultsOn, List.any_eq_true]
  constructor
  · rintro ⟨rule, hr, h⟩
    cases rule with
    | touching k base size =>
      simp only [FaultRule.applies, Bool.and_eq_true, decide_eq_true_eq] at h
      obtain ⟨rfl, h⟩ := h
      exact .inr ⟨base, size, max addr base, hr, by omega, by omega⟩
    | exactly k a l =>
      simp only [FaultRule.applies, decide_eq_true_eq] at h
      obtain ⟨rfl, rfl, rfl⟩ := h
      exact .inl hr
  · rintro (h | ⟨base, size, a, h, h1, h2⟩)
    · exact ⟨_, h, by simp [FaultRule.applies]⟩
    · exact ⟨_, h, by simp only [FaultRule.applies, decide_true, Bool.true_and, decide_eq_true_eq]; omega⟩

/-- A load answers exactly where no rule makes it fault, and then with the bytes held. -/
theorem State.load_eq_some {s : State} {addr len : Nat} {bytes : List Byte} :
    s.load addr len = some bytes ↔ faultsOn s.memoryFaults .load addr len = false ∧ bytes.length = len ∧
      ∀ k, k < len → Memory.read s.memory (addr + k) = bytes[k]? := by
  rw [← Memory.load_eq_some, State.load]
  cases faultsOn s.memoryFaults .load addr len <;> simp

/-- Everything a store can do: it faults, or it writes its bytes and changes nothing else. -/
theorem State.store_cases (s : State) (addr : Nat) (bytes : List Byte) :
    (s.store addr bytes = none ∧ (faultsOn s.memoryFaults .store addr bytes.length = true ∨
      Memory.load s.memory addr bytes.length = none)) ∨
    (s.store addr bytes = some { s with memory := Memory.putAll s.memory addr bytes } ∧
      faultsOn s.memoryFaults .store addr bytes.length = false ∧
      (Memory.load s.memory addr bytes.length).isSome = true) := by
  unfold State.store Memory.store
  cases faultsOn s.memoryFaults .store addr bytes.length <;>
    cases Memory.load s.memory addr bytes.length <;> simp

end Sys2Proof.Machine
end

