-- ==== Sys2Proof/Laws/Registers.lean ====
section
/-! SUPPORT. The register file: both views are in range, a write reads back in both views and leaves every other register
and the width alone. -/

namespace Sys2Proof

theorem wrap_lt (N : Nat) (z : Int) : wrap N z < 2 ^ N := by
  have hpos : (0 : Int) < ((2 ^ N : Nat) : Int) := by exact_mod_cast Nat.two_pow_pos N
  have h := Int.emod_lt_of_pos z hpos
  have h0 := Int.emod_nonneg z hpos.ne'
  unfold wrap
  omega

/-- A natural number wraps to its remainder. -/
@[simp] theorem wrap_natCast (N v : Nat) : wrap N (v : Int) = v % 2 ^ N := by
  unfold wrap
  rw [← Int.natCast_emod, Int.toNat_natCast]

/-- A pattern's own unsigned reading does not change when wrapped. -/
theorem wrap_of_lt {N v : Nat} (h : v < 2 ^ N) : wrap N (v : Int) = v := by
  rw [wrap_natCast, Nat.mod_eq_of_lt h]

/-- `BitVec.ofInt` is the pattern that `wrap` names. -/
theorem toNat_ofInt_eq_wrap (N : Nat) (z : Int) : (BitVec.ofInt N z).toNat = wrap N z := by
  simp [BitVec.toNat_ofInt, wrap]

/-- The signed reading of a pattern in range differs from the unsigned one by 0 or `2^N`. -/
theorem sView_eq {N v : Nat} (hN : 0 < N) (h : v < 2 ^ N) :
    sView N v = if v < 2 ^ (N - 1) then (v : Int) else (v : Int) - ((2 ^ N : Nat) : Int) := by
  obtain ⟨n, rfl⟩ : ∃ n, N = n + 1 := ⟨N - 1, by omega⟩
  simp only [Nat.add_sub_cancel] at *
  have hb : v.testBit n = decide (2 ^ n ≤ v) := by
    rw [Nat.testBit_eq_decide_div_mod_eq]
    have h2 : v / 2 ^ n < 2 := Nat.div_lt_of_lt_mul (by rw [pow_succ] at h; omega)
    by_cases hle : 2 ^ n ≤ v
    · have h1 : 0 < v / 2 ^ n := Nat.div_pos hle (by positivity)
      have : v / 2 ^ n = 1 := by omega
      simp [this, hle]
    · rw [Nat.div_eq_of_lt (by omega)]; simp [hle]
  unfold sView
  simp only [Nat.add_sub_cancel, hb, decide_eq_true_eq]
  split_ifs <;> first | rfl | omega

/-- The signed reading lies in `[-2^(N-1), 2^(N-1))` (00_scope.md R7). -/
theorem sView_bounds {N v : Nat} (hN : 0 < N) (h : v < 2 ^ N) :
    -((2 ^ (N - 1) : Nat) : Int) ≤ sView N v ∧ sView N v < ((2 ^ (N - 1) : Nat) : Int) := by
  rw [sView_eq hN h]
  obtain ⟨n, rfl⟩ : ∃ n, N = n + 1 := ⟨N - 1, by omega⟩
  simp only [Nat.add_sub_cancel, pow_succ] at *
  push_cast
  split_ifs with hlt <;> constructor <;> (zify at *; omega)

/-- Wrapping the signed reading gives the pattern back. -/
theorem wrap_sView {N v : Nat} (h : v < 2 ^ N) : wrap N (sView N v) = v := by
  unfold sView
  split
  · unfold wrap
    rw [Int.sub_emod_right, ← Int.natCast_emod, Int.toNat_natCast, Nat.mod_eq_of_lt h]
  · exact wrap_of_lt h

/-- The signed reading of a wrapped integer that is in signed range is that integer. -/
theorem sView_wrap {N : Nat} {z : Int} (hN : 0 < N) (hlo : -((2 ^ (N - 1) : Nat) : Int) ≤ z)
    (hhi : z < ((2 ^ (N - 1) : Nat) : Int)) : sView N (wrap N z) = z := by
  rw [sView_eq hN (wrap_lt N z)]
  obtain ⟨n, rfl⟩ : ∃ n, N = n + 1 := ⟨N - 1, by omega⟩
  simp only [Nat.add_sub_cancel] at *
  unfold wrap
  rw [pow_succ]
  generalize hm : 2 ^ n = m at *
  have hmpos : 0 < m := by rw [← hm]; positivity
  push_cast
  by_cases hz : 0 ≤ z
  · rw [Int.emod_eq_of_lt hz (by omega)]
    rw [if_pos (by omega)]; omega
  · have : z % ((m : Int) * 2) = z + m * 2 := by
      rw [← Int.add_emod_right, Int.emod_eq_of_lt (by omega) (by omega)]
    rw [this, if_neg (by omega)]; omega

namespace Machine

/-- A register file is 32 or 64 bits wide (10_state.md R20). -/
theorem RegFile.width_cases (rf : RegFile) : rf.width = 32 ∨ rf.width = 64 := by
  cases rf <;> simp [RegFile.width]

theorem RegFile.width_pos (rf : RegFile) : 0 < rf.width := by
  cases rf <;> simp [RegFile.width]

theorem RegFile.ux_lt (rf : RegFile) (r : Reg) : rf.ux r < 2 ^ rf.width := by
  cases rf <;> exact BitVec.isLt _

@[simp] theorem RegFile.write_width (rf : RegFile) (r : Reg) (z : Int) : (rf.write r z).width = rf.width := by
  cases rf <;> rfl

/-- A written register reads back as the wrapped value (00_scope.md R9). -/
@[simp] theorem RegFile.write_ux_same (rf : RegFile) (r : Reg) (z : Int) :
    (rf.write r z).ux r = wrap rf.width z := by
  cases rf <;> simp only [RegFile.write, RegFile.ux, RegFile.width, Vector.getElem_set_self, toNat_ofInt_eq_wrap]

/-- A write leaves every other register alone. -/
theorem RegFile.write_ux_other (rf : RegFile) {r q : Reg} (z : Int) (h : q ≠ r) :
    (rf.write r z).ux q = rf.ux q := by
  have hv : r.val ≠ q.val := fun e => h (Fin.ext e.symm)
  cases rf <;> simp only [RegFile.write, RegFile.ux, Vector.getElem_set_ne _ _ hv]

/-- The pattern of a register is its unsigned view wrapped, and its signed view wrapped. -/
theorem RegFile.wrap_sx (rf : RegFile) (r : Reg) : wrap rf.width (rf.sx r) = rf.ux r :=
  wrap_sView (rf.ux_lt r)

/-- The signed view lies in `[-2^(W-1), 2^(W-1))`. -/
theorem RegFile.sx_bounds (rf : RegFile) (r : Reg) :
    -((2 ^ (rf.width - 1) : Nat) : Int) ≤ rf.sx r ∧ rf.sx r < ((2 ^ (rf.width - 1) : Nat) : Int) :=
  sView_bounds rf.width_pos (rf.ux_lt r)

@[simp] theorem State.writeReg_width (s : State) (r : Reg) (z : Int) : (s.writeReg r z).width = s.width :=
  RegFile.write_width s.regs r z

@[simp] theorem State.writeReg_ux_same (s : State) (r : Reg) (z : Int) :
    (s.writeReg r z).ux r = wrap s.width z := RegFile.write_ux_same s.regs r z

theorem State.writeReg_ux_other (s : State) {r q : Reg} (z : Int) (h : q ≠ r) :
    (s.writeReg r z).ux q = s.ux q := RegFile.write_ux_other s.regs z h

@[simp] theorem State.advance_width (s : State) : s.advance.width = s.width := rfl
@[simp] theorem State.advance_ux (s : State) (r : Reg) : s.advance.ux r = s.ux r := rfl

theorem State.ux_lt (s : State) (r : Reg) : s.ux r < 2 ^ s.width := s.regs.ux_lt r

theorem State.width_cases (s : State) : s.width = 32 ∨ s.width = 64 := s.regs.width_cases

end Machine

end Sys2Proof
end

