-- ==== Sys2Proof/Laws/Ops.lean ====
section
/-! SUPPORT. What each shared operation can do: gas, the charge, the retirement of a result, and the host's moves. -/

namespace Sys2Proof.Machine

/-- `Gas.sub` without underflow subtracts. -/
theorem gasSub_of_le {gas : BitVec 64} {amount : Nat} (h : amount ≤ gas.toNat) :
    gasSub gas amount = (gas - BitVec.ofNat 64 amount, false) := by
  simp [gasSub, not_lt.mpr h]

/-- `Gas.sub` with underflow leaves 0. -/
theorem gasSub_of_lt {gas : BitVec 64} {amount : Nat} (h : gas.toNat < amount) : gasSub gas amount = (0, true) := by
  simp [gasSub, h]

/-- What is left after a charge that can be paid. -/
theorem toNat_gas_sub {gas : BitVec 64} {amount : Nat} (h : amount ≤ gas.toNat) :
    (gas - BitVec.ofNat 64 amount).toNat = gas.toNat - amount := by
  have hlt := gas.isLt
  rw [BitVec.toNat_sub_of_le (by rw [BitVec.le_def, BitVec.toNat_ofNat, Nat.mod_eq_of_lt (by omega)]; exact h),
    BitVec.toNat_ofNat, Nat.mod_eq_of_lt (by omega)]

/-- `Gas.sub` never leaves more than there was. -/
theorem gasSub_fst_le (gas : BitVec 64) (amount : Nat) : (gasSub gas amount).1.toNat ≤ gas.toNat := by
  rcases Nat.lt_or_ge gas.toNat amount with h | h
  · simp [gasSub_of_lt h]
  · rw [gasSub_of_le h, toNat_gas_sub h]; omega

/-- A charge that can be paid goes on with the gas reduced. -/
theorem State.charge_of_le {s : State} {amount : Nat} (paid : State → Host.Outcome State Fault Refusal)
    (h : amount ≤ s.gas.toNat) :
    s.charge amount paid = paid { s with gas := s.gas - BitVec.ofNat 64 amount } := by
  simp [State.charge, gasSub_of_le h]

/-- A charge that cannot be paid ends the instance OutOfGas with no gas left and nothing else changed. -/
theorem State.charge_of_lt {s : State} {amount : Nat} (paid : State → Host.Outcome State Fault Refusal)
    (h : s.gas.toNat < amount) :
    s.charge amount paid = .next { s with gas := 0, status := .outOfGas } := by
  simp [State.charge, gasSub_of_lt h, State.raise]

/-- Everything a charge can do. -/
theorem State.charge_cases (s : State) (amount : Nat) (paid : State → Host.Outcome State Fault Refusal) :
    (amount ≤ s.gas.toNat ∧ s.charge amount paid = paid { s with gas := s.gas - BitVec.ofNat 64 amount }) ∨
    (s.gas.toNat < amount ∧ s.charge amount paid = .next { s with gas := 0, status := .outOfGas }) := by
  rcases Nat.lt_or_ge s.gas.toNat amount with h | h
  · exact .inr ⟨h, s.charge_of_lt paid h⟩
  · exact .inl ⟨h, s.charge_of_le paid h⟩

/-- The retirement of a result: one next state, its frame, and the wrapped result in the destination. -/
theorem State.retire_spec (s : State) (rD : Reg) (z : Int) :
    ∃ t, s.retire rD z = .next t ∧ t.ux rD = wrap s.width z ∧ WritesOnly rD s t :=
  ⟨(s.writeReg rD z).advance, rfl, by simp,
    ⟨by simp, fun r h => by simpa using s.writeReg_ux_other z h, rfl, rfl, rfl, rfl,
      ⟨rfl, rfl, fun _ => rfl, rfl, rfl⟩⟩⟩

/-- Everything an instruction can do (R124): it retires a result, panics, or suspends. -/
theorem exec_cases (i : Instr) (s : State) :
    (∃ rD z, exec i s = s.retire rD z) ∨
    (i = .trap ∧ exec i s = .next (s.raise .panicked)) ∨
    (∃ imm, i = .ecalli imm ∧ exec i s = .next (s.advance.suspend imm)) := by
  cases i <;> first
    | exact .inr (.inl ⟨rfl, rfl⟩)
    | exact .inr (.inr ⟨_, rfl, rfl⟩)
    | exact .inl ⟨_, _, rfl⟩
    | (simp only [exec, execDivU, execDivS, execRemU, execRemS]; split_ifs <;> exact .inl ⟨_, _, rfl⟩)

/-- A charge that only goes on to change fields outside gas, status, memory and pc, taken apart. -/
theorem State.charge_next {s t : State} {amount : Nat} {f : State → State}
    (h : s.charge amount (fun p => .next (f p)) = .next t) :
    (amount ≤ s.gas.toNat ∧ t = f { s with gas := s.gas - BitVec.ofNat 64 amount }) ∨
    (s.gas.toNat < amount ∧ t = { s with gas := 0, status := .outOfGas }) := by
  rcases s.charge_cases amount (fun p => .next (f p)) with ⟨hle, he⟩ | ⟨hlt, he⟩ <;> rw [he] at h <;> cases h
  · exact .inl ⟨hle, rfl⟩
  · exact .inr ⟨hlt, rfl⟩

/-- Everything a handler's spending can do: it pays, or it is left without gas and has returned `haltRequested`. -/
theorem hostSpend_cases (amount : Nat) (s : State) :
    (amount ≤ s.gas.toNat ∧ hostSpend amount s = .next { s with gas := s.gas - BitVec.ofNat 64 amount }) ∨
    (s.gas.toNat < amount ∧
      hostSpend amount s = .next { s with gas := 0, hostPhase := .returned .haltRequested }) := by
  rcases Nat.lt_or_ge s.gas.toNat amount with h | h
  · exact .inr ⟨h, by simp [hostSpend, gasSub_of_lt h]⟩
  · exact .inl ⟨h, by simp [hostSpend, gasSub_of_le h]⟩

/-- Everything an allowed host move can do to gas and status: nothing, the resume, the halt, the charge of the call, which
may end the instance, or a handler's spending, which does not change the status. -/
inductive HostGasStatus (d : HostDescriptor) (s t : State) : HostMove → Prop where
  | keeps {move} : t.gas = s.gas → t.status = s.status → HostGasStatus d s t move
  | resumes : s.hostPhase = .returned .normal → t.gas = s.gas → t.status = .running → HostGasStatus d s t .resume
  | halts : s.hostPhase = .returned .haltRequested → t.gas = s.gas → t.status = .halted → HostGasStatus d s t .halt
  | charges : s.hostPhase = .pending → t.gas = (gasSub s.gas (hostCost d s.regs)).1 →
      (hostCost d s.regs ≤ s.gas.toNat ∧ t.status = s.status ∨
        s.gas.toNat < hostCost d s.regs ∧ t.status = .outOfGas) → HostGasStatus d s t .charge
  | spends {amount} : s.hostPhase = .handling → t.gas = (gasSub s.gas amount).1 → t.status = s.status →
      HostGasStatus d s t (.spendGas amount)

/-- Everything an allowed host move can change: never parameters, program, pc or the moves still to come; gas and status
as `HostGasStatus` says; memory only by writes and removals; which requests fault only by `setFaults`. -/
theorem hostMove_next {d : HostDescriptor} {s t : State} {move : HostMove} (h : hostMove d s move = .next t) :
    t.params = s.params ∧ t.program = s.program ∧ t.pc = s.pc ∧ t.hostMoves = s.hostMoves ∧ HostGasStatus d s t move ∧
    (t.memory = s.memory ∨ (∃ addr bytes, t.memory = Memory.putAll s.memory addr bytes) ∨
      ∃ addr len, t.memory = Memory.remove s.memory addr len) ∧
    (t.memoryFaults = s.memoryFaults ∨ move = .setFaults t.memoryFaults) := by
  unfold hostMove at h
  split at h
  · rename_i hp
    refine (State.charge_next h).elim ?_ ?_ <;> rintro ⟨hc, rfl⟩
    · exact ⟨rfl, rfl, rfl, rfl, .charges hp (by rw [gasSub_of_le hc]) (.inl ⟨hc, rfl⟩), .inl rfl, .inl rfl⟩
    · exact ⟨rfl, rfl, rfl, rfl, .charges hp (by rw [gasSub_of_lt hc]) (.inr ⟨hc, rfl⟩), .inl rfl, .inl rfl⟩
  · cases h; exact ⟨rfl, rfl, rfl, rfl, .keeps rfl rfl, .inl rfl, .inl rfl⟩
  · unfold hostSetFromBytes at h
    split at h <;> cases h
    exact ⟨rfl, rfl, rfl, rfl, .keeps rfl rfl, .inl rfl, .inl rfl⟩
  · rename_i addr bytes _
    unfold hostStore at h
    rcases s.store_cases addr bytes with ⟨e, _⟩ | ⟨e, _⟩ <;> rw [e] at h <;> cases h
    · exact ⟨rfl, rfl, rfl, rfl, .keeps rfl rfl, .inl rfl, .inl rfl⟩
    · exact ⟨rfl, rfl, rfl, rfl, .keeps rfl rfl, .inr (.inl ⟨addr, bytes, rfl⟩), .inl rfl⟩
  · cases h; exact ⟨rfl, rfl, rfl, rfl, .keeps rfl rfl, .inr (.inl ⟨_, _, rfl⟩), .inl rfl⟩
  · cases h; exact ⟨rfl, rfl, rfl, rfl, .keeps rfl rfl, .inr (.inr ⟨_, _, rfl⟩), .inl rfl⟩
  · cases h; exact ⟨rfl, rfl, rfl, rfl, .keeps rfl rfl, .inl rfl, .inr rfl⟩
  · rename_i amount hp
    rcases hostSpend_cases amount s with ⟨hc, e⟩ | ⟨hc, e⟩ <;> rw [e] at h <;> cases h
    · exact ⟨rfl, rfl, rfl, rfl, .spends hp (by rw [gasSub_of_le hc]) rfl, .inl rfl, .inl rfl⟩
    · exact ⟨rfl, rfl, rfl, rfl, .spends hp (by rw [gasSub_of_lt hc]) rfl, .inl rfl, .inl rfl⟩
  · cases h; exact ⟨rfl, rfl, rfl, rfl, .keeps rfl rfl, .inl rfl, .inl rfl⟩
  · rename_i hp
    cases h; exact ⟨rfl, rfl, rfl, rfl, .resumes hp rfl rfl, .inl rfl, .inl rfl⟩
  · rename_i hp
    cases h; exact ⟨rfl, rfl, rfl, rfl, .halts hp rfl rfl, .inl rfl, .inl rfl⟩
  · cases h

/-- A running instance's step is the block's. -/
theorem step_of_running {s : State} (h : s.status = .running) : step s = cycle s := by
  unfold step; rw [h]

/-- A suspended instance's step is the host's turn. -/
theorem step_of_awaiting {s : State} {index : BitVec 32} (h : s.status = .awaitingHostCall index) :
    step s = hostTurn index s := by
  unfold step; rw [h]

/-- A paid cycle executes the decoded instruction. -/
theorem cycle_of_le {s : State} (h : s.cost ≤ s.gas.toNat) :
    cycle s = exec s.decoded.instr { s with gas := s.gas - BitVec.ofNat 64 s.cost } :=
  s.charge_of_le _ h

/-- An unpaid cycle ends OutOfGas. -/
theorem cycle_of_lt {s : State} (h : s.gas.toNat < s.cost) : cycle s = .next { s with gas := 0, status := .outOfGas } :=
  s.charge_of_lt _ h

/-- The host's next move at a known index. -/
theorem hostTurn_cons {s : State} {index : BitVec 32} {d : HostDescriptor} {move : HostMove} {rest : List HostMove}
    (hd : hostDescriptor s.params index = some d) (hm : s.hostMoves = move :: rest) :
    hostTurn index s = hostMove d { s with hostMoves := rest } move := by
  unfold hostTurn; simp only [hd, hm]

/-- A step in which the handler makes its next move. -/
theorem step_of_handlerMoves {s : State} {move : HostMove} {rest : List HostMove} (h : s.HandlerMoves move rest) :
    ∃ d, step s = hostMove d { s with hostMoves := rest } move := by
  obtain ⟨_, hm, index, d, hs, hd⟩ := h
  exact ⟨d, by rw [step_of_awaiting hs, hostTurn_cons hd hm]⟩

/-- Stuck at an unknown index. -/
theorem hostTurn_unknown {s : State} {index : BitVec 32} (h : ∀ d ∈ s.params.registry, d.index ≠ index) :
    hostTurn index s = .fault (.hostCallUnknown index) := by
  have : hostDescriptor s.params index = none := by simpa [hostDescriptor] using h
  unfold hostTurn; simp only [this]

/-- What every instruction leaves alone, whatever it is. -/
theorem exec_next_keeps {i : Instr} {s t : State} (h : exec i s = .next t) :
    t.params = s.params ∧ t.program = s.program ∧ t.memory = s.memory ∧ t.gas = s.gas ∧
      t.hostMoves = s.hostMoves ∧ t.memoryFaults = s.memoryFaults := by
  rcases exec_cases i s with ⟨rD, z, e⟩ | ⟨_, e⟩ | ⟨_, _, e⟩ <;> rw [e] at h <;> cases h <;>
    exact ⟨rfl, rfl, rfl, rfl, rfl, rfl⟩

/-- The decoded mnemonic and the decoded instruction name each other at the two control instructions. -/
theorem instr_control (d : Decoded) :
    (d.instr = .trap ↔ d.op = .trap) ∧ ((∃ imm, d.instr = .ecalli imm) ↔ d.op = .ecalli) := by
  obtain ⟨op, args, skip⟩ := d
  simp only [Decoded.instr]
  cases op <;> cases args <;> simp [Op.instr]

/-- Everything a step can be, if it answers a next state: a charge that ended a running instance, an instruction that
paid, or the host's next move in a suspended one. -/
theorem step_cases {s t : State} (h : step s = .next t) :
    (s.status = .running ∧ s.gas.toNat < s.cost ∧ t = { s with gas := 0, status := .outOfGas }) ∨
    (s.status = .running ∧ s.cost ≤ s.gas.toNat ∧
      exec s.decoded.instr { s with gas := s.gas - BitVec.ofNat 64 s.cost } = .next t) ∨
    (∃ index d move rest, s.status = .awaitingHostCall index ∧ hostDescriptor s.params index = some d ∧
      s.hostMoves = move :: rest ∧ hostMove d { s with hostMoves := rest } move = .next t) := by
  unfold step at h
  split at h
  · rename_i hs
    rcases Nat.lt_or_ge s.gas.toNat s.cost with hlt | hle
    · rw [cycle_of_lt hlt] at h
      cases h; exact .inl ⟨hs, hlt, rfl⟩
    · exact .inr (.inl ⟨hs, hle, by rw [← cycle_of_le hle]; exact h⟩)
  · rename_i index hs
    unfold hostTurn at h
    split at h
    · cases h
    · rename_i d hd
      split at h
      · cases h
      · rename_i move rest hm
        exact .inr (.inr ⟨index, d, move, rest, hs, hd, hm, h⟩)
  all_goals cases h

end Sys2Proof.Machine
end

