-- ==== Sys2Proof/Laws/PerInstr.lean ====
section
/-! SUPPORT. One fact per instruction: the form of its encoding under the reference opcode map (30_encoding.md R107, R110,
R111). -/

namespace Sys2Proof.Laws

/-- The reference byte of the instruction's mnemonic stands for that mnemonic, and the encoding is that byte followed by at
most 5 operand bytes. -/
def EncodedForm.Statement (i : Instr) : Prop :=
  ∃ b, referenceMap.byteOf i.op = some b ∧ referenceMap.opOf b = i.op ∧
    encode i = b :: i.operandBytes ∧ i.operandBytes.length ≤ 5

/-- The three-register operand bytes are two. -/
theorem encodeThree_length (rD rA rB : Reg) : (encodeThree rD rA rB).length ≤ 5 := by simp [encodeThree]

/-- The register-and-immediate operand bytes are at most five. -/
theorem encodeTwoImm_length (rD rS : Reg) (imm : Imm) : (encodeTwoImm rD rS imm).length ≤ 5 := by
  exact Nat.succ_le_succ (immBytes_length imm)

theorem EncodedForm.trap : EncodedForm.Statement .trap := ⟨_, rfl, rfl, rfl, Nat.zero_le 5⟩

theorem EncodedForm.ecalli (imm : Imm) : EncodedForm.Statement (.ecalli imm) :=
  ⟨_, rfl, rfl, rfl, (immBytes_length imm).trans (by decide)⟩

theorem EncodedForm.shlImm (rD rS : Reg) (imm : Imm) : EncodedForm.Statement (.shlImm rD rS imm) :=
  ⟨_, rfl, rfl, rfl, encodeTwoImm_length rD rS imm⟩

theorem EncodedForm.shrImm (rD rS : Reg) (imm : Imm) : EncodedForm.Statement (.shrImm rD rS imm) :=
  ⟨_, rfl, rfl, rfl, encodeTwoImm_length rD rS imm⟩

theorem EncodedForm.sarImm (rD rS : Reg) (imm : Imm) : EncodedForm.Statement (.sarImm rD rS imm) :=
  ⟨_, rfl, rfl, rfl, encodeTwoImm_length rD rS imm⟩

theorem EncodedForm.negAddImm (rD rS : Reg) (imm : Imm) : EncodedForm.Statement (.negAddImm rD rS imm) :=
  ⟨_, rfl, rfl, rfl, encodeTwoImm_length rD rS imm⟩

theorem EncodedForm.shlImmAlt (rD rS : Reg) (imm : Imm) : EncodedForm.Statement (.shlImmAlt rD rS imm) :=
  ⟨_, rfl, rfl, rfl, encodeTwoImm_length rD rS imm⟩

theorem EncodedForm.shrImmAlt (rD rS : Reg) (imm : Imm) : EncodedForm.Statement (.shrImmAlt rD rS imm) :=
  ⟨_, rfl, rfl, rfl, encodeTwoImm_length rD rS imm⟩

theorem EncodedForm.sarImmAlt (rD rS : Reg) (imm : Imm) : EncodedForm.Statement (.sarImmAlt rD rS imm) :=
  ⟨_, rfl, rfl, rfl, encodeTwoImm_length rD rS imm⟩

theorem EncodedForm.add (rD rA rB : Reg) : EncodedForm.Statement (.add rD rA rB) :=
  ⟨_, rfl, rfl, rfl, encodeThree_length rD rA rB⟩

theorem EncodedForm.sub (rD rA rB : Reg) : EncodedForm.Statement (.sub rD rA rB) :=
  ⟨_, rfl, rfl, rfl, encodeThree_length rD rA rB⟩

theorem EncodedForm.mul (rD rA rB : Reg) : EncodedForm.Statement (.mul rD rA rB) :=
  ⟨_, rfl, rfl, rfl, encodeThree_length rD rA rB⟩

theorem EncodedForm.divU (rD rA rB : Reg) : EncodedForm.Statement (.divU rD rA rB) :=
  ⟨_, rfl, rfl, rfl, encodeThree_length rD rA rB⟩

theorem EncodedForm.divS (rD rA rB : Reg) : EncodedForm.Statement (.divS rD rA rB) :=
  ⟨_, rfl, rfl, rfl, encodeThree_length rD rA rB⟩

theorem EncodedForm.remU (rD rA rB : Reg) : EncodedForm.Statement (.remU rD rA rB) :=
  ⟨_, rfl, rfl, rfl, encodeThree_length rD rA rB⟩

theorem EncodedForm.remS (rD rA rB : Reg) : EncodedForm.Statement (.remS rD rA rB) :=
  ⟨_, rfl, rfl, rfl, encodeThree_length rD rA rB⟩

theorem EncodedForm.shl (rD rA rB : Reg) : EncodedForm.Statement (.shl rD rA rB) :=
  ⟨_, rfl, rfl, rfl, encodeThree_length rD rA rB⟩

theorem EncodedForm.shr (rD rA rB : Reg) : EncodedForm.Statement (.shr rD rA rB) :=
  ⟨_, rfl, rfl, rfl, encodeThree_length rD rA rB⟩

theorem EncodedForm.sar (rD rA rB : Reg) : EncodedForm.Statement (.sar rD rA rB) :=
  ⟨_, rfl, rfl, rfl, encodeThree_length rD rA rB⟩

theorem EncodedForm.and (rD rA rB : Reg) : EncodedForm.Statement (.and rD rA rB) :=
  ⟨_, rfl, rfl, rfl, encodeThree_length rD rA rB⟩

theorem EncodedForm.xor (rD rA rB : Reg) : EncodedForm.Statement (.xor rD rA rB) :=
  ⟨_, rfl, rfl, rfl, encodeThree_length rD rA rB⟩

theorem EncodedForm.or (rD rA rB : Reg) : EncodedForm.Statement (.or rD rA rB) :=
  ⟨_, rfl, rfl, rfl, encodeThree_length rD rA rB⟩

theorem EncodedForm.mulUpperSS (rD rA rB : Reg) : EncodedForm.Statement (.mulUpperSS rD rA rB) :=
  ⟨_, rfl, rfl, rfl, encodeThree_length rD rA rB⟩

theorem EncodedForm.mulUpperUU (rD rA rB : Reg) : EncodedForm.Statement (.mulUpperUU rD rA rB) :=
  ⟨_, rfl, rfl, rfl, encodeThree_length rD rA rB⟩

theorem EncodedForm.mulUpperSU (rD rA rB : Reg) : EncodedForm.Statement (.mulUpperSU rD rA rB) :=
  ⟨_, rfl, rfl, rfl, encodeThree_length rD rA rB⟩

end Sys2Proof.Laws
end

