-- ==== Sys2Proof/Tests/Slice0.lean ====
section
/-! SUPPORT. The model's own tests: the spec's vectors (95_test_vectors.md, cited by section), one step each, and the
witnesses that the statements' hypotheses can be met. -/

namespace Sys2Proof.Tests

open Machine

/-! ## Helpers -/

/-- The next state, where there is one. -/
def nextOf : Host.Outcome State Fault Refusal → Option State
  | .next t => some t
  | .fault _ => none
  | .refused _ => none

/-- The fault, where there is one. -/
def faultOf : Host.Outcome State Fault Refusal → Option Fault
  | .fault f => some f
  | .next _ => none
  | .refused _ => none

/-- The refusal, where there is one. -/
def refusalOf : Host.Outcome State Fault Refusal → Option Refusal
  | .refused r => some r
  | .next _ => none
  | .fault _ => none

/-- A 64-bit register file with these values, others 0. -/
def regs64 (values : List (Reg × Int)) : RegFile :=
  values.foldl (fun rf e => rf.write e.1 e.2) (.w64 (Vector.replicate 13 0))

/-- A 32-bit register file with these values, others 0. -/
def regs32 (values : List (Reg × Int)) : RegFile :=
  values.foldl (fun rf e => rf.write e.1 e.2) (.w32 (Vector.replicate 13 0))

/-- A program from code bytes and mask bits, given as the numbers 1 and 0. -/
def prog (code : List Byte) (starts : List Nat) : Program :=
  { code := code, mask := starts.map (· == 1), jumpTable := [] }

/-- A launched instance at `pc = 0` with the default parameters and 100 units of gas. -/
def inst (rf : RegFile) (p : Program) : State :=
  { State.reset with program := p, regs := rf, gas := 100 }

/-- Both results, at 64 and at 32 bits, of a three-register instruction on `r2 = a`, `r1 = b`, into `r3`. -/
def both (f : Reg → Reg → Reg → Instr) (a b : Int) : Option Nat × Option Nat :=
  ((nextOf (exec (f 3 2 1) (inst (regs64 [(2, a), (1, b)]) (prog [] [])))).map (·.ux 3),
   (nextOf (exec (f 3 2 1) (inst (regs32 [(2, a), (1, b)]) (prog [] [])))).map (·.ux 3))

/-- Both results of a register-and-immediate instruction on `r1 = v` with these immediate bytes, into `r2`. -/
def bothImm (f : Reg → Reg → Imm → Instr) (v : Int) (bytes : List Byte) : Option Nat × Option Nat :=
  ((nextOf (exec (f 2 1 (imm32 bytes)) (inst (regs64 [(1, v)]) (prog [] [])))).map (·.ux 2),
   (nextOf (exec (f 2 1 (imm32 bytes)) (inst (regs32 [(1, v)]) (prog [] [])))).map (·.ux 2))

/-- The instruction these bytes are, alone in a program. -/
def read1 (bytes : List Byte) : Instr := (decode referenceMap (singleProgram bytes) 0).instr

/-! ## Well-formedness: what the checks refuse -/

theorem test_mask_shorter_than_code_is_refused : ¬(prog [0xC8, 0x12, 0x03] [1, 0]).WellFormed := by decide

theorem test_mask_longer_than_code_is_refused : ¬(prog [0x00] [1, 0]).WellFormed := by decide

theorem test_program_p1_is_well_formed : (prog [0xC8, 0x12, 0x03, 0x00] [1, 0, 0, 1]).WellFormed := by decide

theorem test_byte_mapped_twice_is_refused : ¬OpcodeMap.WellFormed [(0xC8, .add), (0xC8, .sub)] := by decide

theorem test_reference_map_is_well_formed : referenceMap.WellFormed := by decide

theorem test_repeated_address_is_refused : ¬Memory.wf [(4, 1), (4, 2)] := by decide

theorem test_falling_addresses_are_refused : ¬Memory.wf [(5, 1), (4, 2)] := by decide

/-! ## Numeric decoders (L2.3) -/

theorem test_nibbles : (lo4 0x12, hi4 0x12) = (2, 1) := by decide

theorem test_clamps : ([0, 12, 13, 14, 15].map clampR, [0, 3, 4, 5, 15].map clampL) =
    ([0, 12, 12, 12, 12], [0, 3, 4, 4, 4]) := by decide

theorem test_imm32_short : [imm32 [], imm32 [0x7F], imm32 [0x80], imm32 [0xFF], imm32 [0x34, 0x12], imm32 [0x00, 0x80]] =
    [0, 0x7F, 0xFFFFFF80, 0xFFFFFFFF, 0x1234, 0xFFFF8000] := by decide

theorem test_imm32_long : [imm32 [1, 2, 3], imm32 [0, 0, 0x80], imm32 [0xFF, 0xFF, 0xFF, 0x7F], imm32 [0, 0, 0, 0x80]] =
    [0x00030201, 0xFF800000, 0x7FFFFFFF, 0x80000000] := by decide

theorem test_immediate_views : ((imm32 [0x80]).toNat, (imm32 [0x80]).toInt) = (4294967168, -128) := by decide

theorem test_bytesLE : bytesLE 0xFFFFFF80 = [0x80, 0xFF, 0xFF, 0xFF] := by decide

theorem test_immW : (immW 64 (imm32 [0x80]), immW 64 (imm32 [0xFF, 0xFF, 0xFF, 0x7F])) =
    (0xFFFFFFFFFFFFFF80, 0x7FFFFFFF) := by decide

theorem test_imm64 : [imm64 [], imm64 [0xFF], imm64 [1, 2, 3, 4, 5, 6, 7, 0x88]] = [0, 0xFF, 0x8807060504030201] := by
  decide

/-! ## Mask distances (L2.2) -/

/-- The 7-byte code of L2.2 with starts at 0, 3 and 4. -/
def l22 : Program := prog [0, 0, 0, 0, 0, 0, 0] [1, 0, 0, 1, 1, 0, 0]

theorem test_forward : (List.range 9).map l22.bytesToNext =
    [some 0, some 2, some 1, some 0, some 0, some 2, some 1, some 0, none] := by decide

theorem test_backward : (List.range 8).map l22.bytesToPrevious =
    [some 0, some 1, some 2, some 0, some 0, some 1, some 2, none] := by decide

theorem test_backward_refused : (prog [0, 0] [0, 1]).bytesToPrevious 0 = none := by decide

theorem test_skip : [0, 3, 4].map l22.skip = [3, 1, 3] := by decide

/-! ## The 13 shapes (L2.4) -/

theorem test_shape_no_arguments : (prog [0, 0xAA, 0xBB] [1, 0, 0]).skip 0 = 3 := by decide

theorem test_shape_one_immediate : decodeArgs (prog [0, 1, 2, 3, 4, 5, 6] [1, 0, 0, 0, 0, 0, 0]) 0 .oneImmediate =
    .oneImmediate 0x04030201 := by decide

theorem test_shape_two_immediates : decodeArgs (prog [0, 2, 0x34, 0x12, 0xFF] [1, 0, 0, 0, 0]) 0 .twoImmediates =
    .twoImmediates 0x1234 0xFFFFFFFF := by decide

theorem test_shape_two_immediates_cut : decodeArgs (prog [0, 3, 1] [1, 0, 0]) 0 .twoImmediates = .twoImmediates 1 0 := by
  decide

theorem test_shape_one_offset :
    decodeArgs (prog [0, 0, 0, 0, 0, 0, 0, 0, 0, 0, 0, 0xFB] [1, 0, 0, 0, 0, 0, 0, 0, 0, 0, 1, 0]) 10 .oneOffset =
      .oneOffset 0xFFFFFFFB 5 := by decide

theorem test_shape_one_register_one_immediate :
    decodeArgs (prog [0, 0xF7, 0x80, 0x00] [1, 0, 0, 0]) 0 .oneRegisterOneImmediate =
      .oneRegisterOneImmediate 7 0x80 := by decide

theorem test_shape_one_register_two_immediates :
    decodeArgs (prog [0, 0x21, 0xCD, 0xAB, 0x80] [1, 0, 0, 0, 0]) 0 .oneRegisterTwoImmediates =
      .oneRegisterTwoImmediates 1 0xFFFFABCD 0xFFFFFF80 := by decide

theorem test_shape_one_register_one_immediate_one_offset :
    decodeArgs (prog [0, 0x13, 0x07, 0xFE, 0] [1, 0, 0, 0, 1]) 0 .oneRegisterOneImmediateOneOffset =
      .oneRegisterOneImmediateOneOffset 3 7 0xFFFFFFFE 0xFFFFFFFE := by decide

theorem test_shape_extended_immediate :
    decodeArgs (prog [0, 3, 1, 2, 3, 4, 5, 6, 7, 0x88] [1, 0, 0, 0, 0, 0, 0, 0, 0, 0]) 0
      .oneRegisterOneExtendedWidthImmediate = .oneRegisterOneExtendedWidthImmediate 3 0x8807060504030201 := by decide

theorem test_shape_two_registers : decodeArgs (prog [0, 0xEF] [1, 0]) 0 .twoRegisters = .twoRegisters 12 12 := by decide

theorem test_shape_two_registers_end_of_code : decodeArgs (prog [0] [1]) 0 .twoRegisters = .twoRegisters 0 0 := by decide

theorem test_shape_two_registers_one_immediate :
    decodeArgs (prog [0, 0x12, 0x80] [1, 0, 0]) 0 .twoRegistersOneImmediate =
      .twoRegistersOneImmediate 1 2 0xFFFFFF80 := by decide

theorem test_shape_two_registers_one_offset :
    decodeArgs (prog [0, 0x12, 0x10] [1, 0, 0]) 0 .twoRegistersOneOffset =
      .twoRegistersOneOffset 1 2 0x10 0x10 := by decide

theorem test_shape_two_registers_two_immediates :
    decodeArgs (prog [0, 0x34, 0x01, 0x7F, 0x80, 0x00] [1, 0, 0, 0, 0, 0]) 0 .twoRegistersTwoImmediates =
      .twoRegistersTwoImmediates 3 4 0x7F 0x80 := by decide

theorem test_shape_length_prefix_crosses_the_next_start :
    decodeArgs (prog [0, 0x34, 0x02, 1, 0, 0] [1, 0, 0, 1, 0, 0]) 0 .twoRegistersTwoImmediates =
      .twoRegistersTwoImmediates 3 4 1 0 := by decide

theorem test_shape_three_registers : decodeArgs (prog [0, 0xFD, 0xFE] [1, 0, 0]) 0 .threeRegisters =
    .threeRegisters 12 12 12 := by decide

theorem test_shape_three_registers_short : decodeArgs (prog [0, 0x12] [1, 0]) 0 .threeRegisters =
    .threeRegisters 1 2 0 := by decide

/-! ## Words written out from the encodings of R107 and R111, one per constructor -/

theorem test_decode_control : [read1 [0x00], read1 [0x0A, 0x03], read1 [0x0A], read1 [0xFF]] =
    [.trap, .ecalli 3, .ecalli 0, .trap] := by decide

theorem test_decode_two_registers_one_immediate :
    [read1 [0x97, 0x12, 0x03], read1 [0x98, 0x12, 0xFF], read1 [0x99, 0x12, 0x04], read1 [0x9A, 0x12, 0x05],
     read1 [0x9B, 0x12, 0x01], read1 [0x9C, 0x43, 0x80], read1 [0x9D, 0x45, 0x80]] =
    [.shlImm 2 1 3, .shrImm 2 1 0xFFFFFFFF, .sarImm 2 1 4, .negAddImm 2 1 5,
     .shlImmAlt 2 1 1, .shrImmAlt 3 4 0xFFFFFF80, .sarImmAlt 5 4 0xFFFFFF80] := by decide

theorem test_decode_three_registers_arithmetic :
    [read1 [0xC8, 0x12, 0x03], read1 [0xC9, 0x12, 0x03], read1 [0xCA, 0x12, 0x03], read1 [0xCB, 0x21, 0x03],
     read1 [0xCC, 0x65, 0x04], read1 [0xCD, 0x21, 0x07], read1 [0xCE, 0x65, 0x08]] =
    [.add 3 2 1, .sub 3 2 1, .mul 3 2 1, .divU 3 1 2, .divS 4 5 6, .remU 7 1 2, .remS 8 5 6] := by decide

theorem test_decode_three_registers_others :
    [read1 [0xCF, 0x12, 0x03], read1 [0xD0, 0x12, 0x03], read1 [0xD1, 0x12, 0x03], read1 [0xD2, 0x12, 0x03],
     read1 [0xD3, 0x12, 0x03], read1 [0xD4, 0x12, 0x03], read1 [0xD5, 0x12, 0x03], read1 [0xD6, 0x12, 0x03],
     read1 [0xD7, 0x12, 0x03]] =
    [.shl 3 2 1, .shr 3 2 1, .sar 3 2 1, .and 3 2 1, .xor 3 2 1, .or 3 2 1, .mulUpperSS 3 2 1, .mulUpperUU 3 2 1,
     .mulUpperSU 3 2 1] := by decide

theorem test_encode : [encode (.add 3 2 1), encode (.negAddImm 2 1 5), encode (.shrImmAlt 3 4 0xFFFFFF80),
      encode (.ecalli 0), encode (.ecalli 0x80), encode .trap] =
    [[0xC8, 0x12, 0x03], [0x9A, 0x12, 0x05], [0x9C, 0x43, 0x80], [0x0A], [0x0A, 0x80, 0x00], [0x00]] := by decide

/-- The host's number for each row of the opcode table, its byte alone, decodes to the row's mnemonic. -/
theorem test_table_words_decode :
    referenceMap.all (fun e => (decodeTableWord 8 e.1.toNat).map Instr.op == some e.2) = true := by decide

/-- Placed where the next step fetches, each row of the opcode table is the first instruction that runs. -/
theorem test_table_words_run : referenceMap.all (fun e =>
      (State.reset.withFetchWord 8 e.1.toNat).decoded.op == e.2 &&
      (nextOf (step (State.reset.withFetchWord 8 e.1.toNat))).map State.status ==
        some (if e.2 = .trap then .panicked else if e.2 = .ecalli then .awaitingHostCall 0 else .running)) = true := by
  decide

/-! ## The program image (L2.1) -/

theorem test_varints :
    [referenceVarint [0x00], referenceVarint [0x7F], referenceVarint [0x80, 0x80], referenceVarint [0x81, 0x2C],
     referenceVarint [0xBF, 0xFF], referenceVarint [0xC0, 0x00, 0x40], referenceVarint [0x80]] =
    [some (0, []), some (127, []), some (128, []), some (300, []), some (16383, []), some (16384, []), none] := by decide

theorem test_varint_of_eight_bytes :
    referenceVarint [0xFF, 1, 2, 3, 4, 5, 6, 7, 0x88, 9] = some (0x8807060504030201, [9]) := by decide

/-- The program an image decodes to, where it does. -/
def programOf (image : List Byte) : Option Program :=
  match decodeImage .reference image with
  | .ok p => some p
  | .error _ => none

/-- The fault an image raises, where it does. -/
def imageFault (image : List Byte) : Option DecodeFault :=
  match decodeImage .reference image with
  | .ok _ => none
  | .error e => some e

theorem test_image_p1 : programOf [0x00, 0x00, 0x04, 0xC8, 0x12, 0x03, 0x00, 0x09] =
    some (prog [0xC8, 0x12, 0x03, 0x00] [1, 0, 0, 1]) := by decide

theorem test_image_padding_bits_ignored : programOf [0x00, 0x00, 0x04, 0xC8, 0x12, 0x03, 0x00, 0xF9] =
    some (prog [0xC8, 0x12, 0x03, 0x00] [1, 0, 0, 1]) := by decide

theorem test_image_jump_table :
    (programOf [0x02, 0x02, 0x04, 0x05, 0x00, 0x34, 0x12, 0xC8, 0x12, 0x03, 0x00, 0x09]).map Program.jumpTable =
      some [5, 0x1234] := by decide

theorem test_image_width_zero : (programOf [0x03, 0x00, 0x01, 0x00, 0x01]).map Program.jumpTable = some [] := by decide

theorem test_image_faults :
    [imageFault [0x00, 0x05, 0x01, 0x00, 0x01], imageFault [0x00, 0x00, 0x04, 0xC8, 0x12, 0x03, 0x00],
     imageFault [0x00, 0x00, 0x04, 0xC8, 0x12, 0x03, 0x00, 0x09, 0x00], imageFault [0x80], imageFault [0x00],
     imageFault [0x00, 0x00, 0xF0, 0x00, 0x00, 0x00, 0x00, 0x01]] =
    [some .itemWidth, some .truncatedSections, some .trailingBytes, some .truncatedHeader, some .truncatedHeader,
     some .trailingBytes] := by decide

theorem test_image_code_length_refused : imageFault [0x00, 0x00, 0xF8, 0x00, 0x00, 0x00, 0x00, 0x01] = some .codeLength := by
  decide

theorem test_image_encoder : encodeImage 2 { prog [0xC8, 0x12, 0x03, 0x00] [1, 0, 0, 1] with jumpTable := [5, 0x1234] } =
    [0x02, 0x02, 0x04, 0x05, 0x00, 0x34, 0x12, 0xC8, 0x12, 0x03, 0x00, 0x09] := by decide

/-! ## Registers and marshalling (L2.6), gas (L2.7) -/

theorem test_register_views : ((regs64 [(1, -1)]).ux 1, (regs32 [(1, 0x80000000)]).sx 1) =
    (0xFFFFFFFFFFFFFFFF, -2147483648) := by decide

theorem test_marshal_out_32 : ((regs32 [(0, 0x04030201)]).getBytes.length, (regs32 [(0, 0x04030201)]).getBytes.take 5) =
    (52, [1, 2, 3, 4, 0]) := by decide

theorem test_marshal_out_64 : (regs64 [(12, 0x1122334455667788)]).getBytes.drop 96 =
    [0x88, 0x77, 0x66, 0x55, 0x44, 0x33, 0x22, 0x11] := by decide

theorem test_marshal_in_wrong_length : (regs64 []).setFromBytes (List.replicate 103 0) = none := by decide

theorem test_gas_sub : [gasSub 100 1, gasSub 1 1, gasSub 0 0, gasSub 0 1, gasSub 5 7,
      gasSub 0xFFFFFFFFFFFFFFFF 0xFFFFFFFFFFFFFFFF] =
    [(99, false), (0, false), (0, false), (0, true), (0, true), (0, false)] := by decide

/-! ## Arithmetic (L2.8) -/

theorem test_add_wraps : both .add (-1) 1 = (some 0, some 0) := by decide
theorem test_add_widths : both .add 0xFFFFFFFF 1 = (some 0x100000000, some 0) := by decide
theorem test_sub_order : both .sub 0 1 = (some 0xFFFFFFFFFFFFFFFF, some 0xFFFFFFFF) := by decide
theorem test_mul_widths : both .mul 0x10000 0x10000 = (some 0x100000000, some 0) := by decide
theorem test_mul_upper_uu : both .mulUpperUU 0xFFFFFFFF 0xFFFFFFFF = (some 0, some 0xFFFFFFFE) := by decide
theorem test_mul_upper_uu_max : both .mulUpperUU (-1) (-1) = (some 0xFFFFFFFFFFFFFFFE, some 0xFFFFFFFE) := by decide
theorem test_mul_upper_ss : both .mulUpperSS (-1) 1 = (some 0xFFFFFFFFFFFFFFFF, some 0xFFFFFFFF) := by decide
theorem test_mul_upper_ss_min : both .mulUpperSS 0x80000000 0x80000000 = (some 0, some 0x40000000) := by decide
theorem test_mul_upper_su : both .mulUpperSU (-1) (-1) = (some 0xFFFFFFFFFFFFFFFF, some 0xFFFFFFFF) := by decide
theorem test_mul_upper_su_order : both .mulUpperSU 2 0x80000000 = (some 0, some 1) := by decide
theorem test_div_u_by_zero : both .divU 7 0 = (some 0xFFFFFFFFFFFFFFFF, some 0xFFFFFFFF) := by decide
theorem test_div_u : both .divU 7 2 = (some 3, some 3) := by decide
theorem test_div_s_truncates : both .divS (-7) 2 = (some 0xFFFFFFFFFFFFFFFD, some 0xFFFFFFFD) := by decide
theorem test_div_s_min : both .divS 0x80000000 (-1) = (some 0xFFFFFFFF80000000, some 0x80000000) := by decide
theorem test_rem_u_by_zero : both .remU 7 0 = (some 7, some 7) := by decide
theorem test_rem_s_sign : both .remS (-7) 2 = (some 0xFFFFFFFFFFFFFFFF, some 0xFFFFFFFF) := by decide
theorem test_rem_s_min : both .remS 0x80000000 (-1) = (some 0, some 0) := by decide
theorem test_neg_add_imm : bothImm .negAddImm 7 [0x05] = (some 0xFFFFFFFFFFFFFFFE, some 0xFFFFFFFE) := by decide
theorem test_neg_add_imm_extends : bothImm .negAddImm 0 [0x00, 0x80] = (some 0xFFFFFFFFFFFF8000, some 0xFFFF8000) := by
  decide

/-! ## Bitwise and shifts (L2.9) -/

theorem test_and : both .and 0xF0F0 0xFF00 = (some 0xF000, some 0xF000) := by decide
theorem test_or : both .or 0xF0F0 0xFF00 = (some 0xFFF0, some 0xFFF0) := by decide
theorem test_xor : both .xor (-1) 0x0F = (some 0xFFFFFFFFFFFFFFF0, some 0xFFFFFFF0) := by decide
theorem test_shl_amount : both .shl 1 33 = (some 0x200000000, some 2) := by decide
theorem test_shr : both .shr 0x80000000 31 = (some 1, some 1) := by decide
theorem test_sar : both .sar 0x80000000 31 = (some 1, some 0xFFFFFFFF) := by decide
theorem test_sar_amount_64 : both .sar (-16) 64 = (some 0xFFFFFFFFFFFFFFF0, some 0xFFFFFFF0) := by decide
theorem test_shl_imm_negative : bothImm .shlImm 3 [0xFF] = (some 0x8000000000000000, some 0x80000000) := by decide
theorem test_shr_imm_negative : bothImm .shrImm (-1) [0xFF] = (some 1, some 1) := by decide
theorem test_sar_imm : bothImm .sarImm (-256) [0x04] = (some 0xFFFFFFFFFFFFFFF0, some 0xFFFFFFF0) := by decide
theorem test_shl_imm_alt : bothImm .shlImmAlt 32 [0x01] = (some 0x100000000, some 1) := by decide
theorem test_shr_imm_alt : bothImm .shrImmAlt 4 [0x80] = (some 0x0FFFFFFFFFFFFFF8, some 0x0FFFFFF8) := by decide
theorem test_sar_imm_alt : bothImm .sarImmAlt 4 [0x80] = (some 0xFFFFFFFFFFFFFFF8, some 0xFFFFFFF8) := by decide

theorem test_same_register : ((nextOf (exec (.sub 1 1 2) (inst (regs64 [(1, 9), (2, 4)]) (prog [] [])))).map (·.ux 1)) =
    some 5 := by decide

/-! ## Steps and terminal statuses (L2.10, L3) -/

/-- Program P1 with `r1 = 5`, `r2 = 10`. -/
def p1 : State := inst (regs64 [(1, 5), (2, 10)]) (prog [0xC8, 0x12, 0x03, 0x00] [1, 0, 0, 1])

/-- What a step shows: pc, gas, status and `r3`. -/
def shown (o : Host.Outcome State Fault Refusal) : Option (BitVec 32 × BitVec 64 × Status × Nat) :=
  (nextOf o).map fun t => (t.pc, t.gas, t.status, t.ux 3)

theorem test_p1_first_step : shown (step p1) = some (3, 99, .running, 15) := by decide
theorem test_p1_second_step : shown (step { p1 with pc := 3 }) = some (3, 99, .panicked, 0) := by decide
theorem test_p1b_non_start : shown (step { p1 with pc := 1 }) = some (1, 99, .panicked, 0) := by decide
theorem test_p4_out_of_gas : shown (step { p1 with pc := 3, gas := 0 }) = some (3, 0, .outOfGas, 0) := by decide
theorem test_p6_end_of_code : shown (step { p1 with pc := 4 }) = some (4, 99, .panicked, 0) := by decide
theorem test_fetch_far_out : shown (step { p1 with pc := 0xFFFFFFFF }) = some (0xFFFFFFFF, 99, .panicked, 0) := by decide

/-- Program P3 with a registry that knows index 3 at cost 10. -/
def p3 : State :=
  { inst (regs64 [(1, 5), (2, 10)]) (prog [0x0A, 0x03, 0xC8, 0x12, 0x03, 0x00] [1, 0, 1, 0, 0, 1]) with
    params := { defaultParams with registry := [{ index := 3, cost := .constant 10 }] } }

/-- P3 suspended, with what the host still has to do. -/
def p3at (phase : HostPhase) (moves : List HostMove) : State :=
  { p3 with pc := 2, gas := 89, status := .awaitingHostCall 3, hostPhase := phase, hostMoves := moves }

theorem test_p3_suspends : shown (step p3) = some (2, 99, .awaitingHostCall 3, 0) := by decide

theorem test_p3_charge : shown (step { p3at .pending [.charge] with gas := 99 }) =
    some (2, 89, .awaitingHostCall 3, 0) := by decide

theorem test_host_cost_underflow : shown (step { p3at .pending [.charge] with gas := 5 }) =
    some (2, 0, .outOfGas, 0) := by decide

theorem test_p3_handler : (nextOf (step (p3at .handling [.setReg 7 42]))).map (·.ux 7) = some 42 := by decide
theorem test_p3_resume : shown (step (p3at (.returned .normal) [.resume])) = some (2, 89, .running, 0) := by decide
theorem test_p3_halt : shown (step (p3at (.returned .haltRequested) [.halt])) = some (2, 89, .halted, 0) := by decide

theorem test_resume_after_halt_request_refused : refusalOf (step (p3at (.returned .haltRequested) [.resume])) =
    some (.hostMoveOutOfTurn .resume) := by decide

theorem test_handler_before_charge_refused : refusalOf (step (p3at .pending [.setReg 7 42])) =
    some (.hostMoveOutOfTurn (.setReg 7 42)) := by decide

theorem test_marshal_move_refused : refusalOf (step (p3at .handling [.setFromBytes [1]])) = some (.marshalLength 1) := by
  decide

theorem test_waits_for_the_host : faultOf (step (p3at .pending [])) = some (.awaitingHost 3) := by decide

theorem test_unknown_index_is_stuck : faultOf (step { p3at .pending [.charge] with status := .awaitingHostCall 200 }) =
    some (.hostCallUnknown 200) := by decide

theorem test_store_to_unlisted_faults : (nextOf (step (p3at .handling [.store 16 [1]]))).map State.memory = some [] := by
  decide

theorem test_map_then_store : (nextOf (step { p3at .handling [.store 16 [7]] with memory := [(16, 1), (17, 2)] })).map
    State.memory = some [(16, 7), (17, 2)] := by decide

/-- R55: an address that can be read may still fault a store, and the store changes nothing. -/
theorem test_readable_store_faults : (nextOf (step { p3at .handling [.store 16 [7]] with
      memory := [(16, 1)], memoryFaults := [.touching .store 0 17] })).map (fun t => (t.memory, t.load 16 1)) =
    some ([(16, 1)], some [1]) := by decide

/-- R55: an address that can be stored to may still fault a load. -/
theorem test_store_only_address : (nextOf (step { p3at .handling [.store 16 [7]] with
      memory := [(16, 1)], memoryFaults := [.exactly .load 16 1] })).map (fun t => (t.memory, t.load 16 1)) =
    some ([(16, 7)], none) := by decide

/-- A Halted instance with `x[r7] = 0x1000`, `x[r8] = 4`. -/
def halted (m : Memory) : State :=
  { inst (regs64 [(7, 0x1000), (8, 4)]) (prog [] []) with status := .halted, memory := m }

theorem test_halt_result : haltResult (halted [(0x1000, 1), (0x1001, 2), (0x1002, 3), (0x1003, 4)]) = some [1, 2, 3, 4] := by
  decide

theorem test_halt_result_fault : haltResult (halted [(0x1000, 1)]) = some [] := by decide

/-- The collaborator's answer decides: every byte is held, and the read faults all the same. -/
theorem test_halt_result_fault_rule :
    haltResult { halted [(0x1000, 1), (0x1001, 2), (0x1002, 3), (0x1003, 4)] with
      memoryFaults := [.touching .load 0x1003 1] } = some [] := by decide

/-- A fault rule's range ends before an address, begins at it, and is not touched by an empty request. -/
theorem test_fault_rule_edges : [faultsOn [.touching .store 16 4] .store 12 4, faultsOn [.touching .store 16 4] .store 12 5,
      faultsOn [.touching .store 16 4] .store 20 1, faultsOn [.touching .store 16 4] .store 17 0,
      faultsOn [.touching .store 16 4] .load 16 4, faultsOn [.exactly .store 17 0] .store 17 0] =
    [false, true, false, false, false, true] := by decide

theorem test_host_call_names : (hostCallNames.lookup 3, hostCallNames.lookup 26, hostCallNames.lookup 100) =
    (some "read", some "provide", some "log") := by decide

theorem test_status_codes : [Status.running, .halted, .panicked, .outOfGas, .awaitingHostCall 3].map Status.code =
    [0, 1, 2, 3, 4] := by decide

theorem test_memory_write_keeps_the_form : Memory.put (Memory.put [] 5 1) 4 2 = [(4, 2), (5, 1)] := by decide

/-! ## Witnesses: states and operands that meet the statements' hypotheses -/

theorem witness_TrapPanicsInPlace_paid : ({ p1 with pc := 3 } : State).status = .running ∧
    ({ p1 with pc := 3 } : State).decoded.op = .trap ∧
    ({ p1 with pc := 3 } : State).cost ≤ ({ p1 with pc := 3 } : State).gas.toNat := by decide

theorem witness_TrapPanicsInPlace_unpaid : ({ p1 with pc := 3, gas := 0 } : State).decoded.op = .trap ∧
    ({ p1 with pc := 3, gas := 0 } : State).gas.toNat < ({ p1 with pc := 3, gas := 0 } : State).cost := by decide

theorem witness_EcalliAdvancesAndSuspends_unpaid : ({ p3 with gas := 0 } : State).status = .running ∧
    ({ p3 with gas := 0 } : State).decoded.op = .ecalli ∧
    ({ p3 with gas := 0 } : State).gas.toNat < ({ p3 with gas := 0 } : State).cost := by decide

theorem witness_EcalliAdvancesAndSuspends_unknown :
    ({ p3 with status := .awaitingHostCall 200 } : State).status = .awaitingHostCall 200 ∧
    ∀ d ∈ p3.params.registry, d.index ≠ 200 := by decide

/-- Operands for the division statements: `r2 = a`, `r1 = b`. -/
def divs (a b : Int) : State := inst (regs64 [(2, a), (1, b)]) (prog [] [])

theorem witness_DivisionIdentityHolds_completes : ∃ tq tr uq ur,
    exec (.divS 3 2 1) (divs (-7) 2) = .next tq ∧ exec (.remS 3 2 1) (divs (-7) 2) = .next tr ∧
    exec (.divU 3 2 1) (divs (-7) 2) = .next uq ∧ exec (.remU 3 2 1) (divs (-7) 2) = .next ur :=
  ⟨_, _, _, _, rfl, rfl, rfl, rfl⟩

theorem witness_DivisionIdentityHolds_general : (divs (-7) 2).sx 1 ≠ 0 ∧
    ¬((divs (-7) 2).sx 2 = -((2 ^ ((divs (-7) 2).width - 1) : Nat) : Int) ∧ (divs (-7) 2).sx 1 = -1) ∧
    (divs (-7) 2).ux 1 ≠ 0 := by decide

theorem witness_DivisionIdentityHolds_min : (divs (-9223372036854775808) (-1)).sx 2 =
    -((2 ^ ((divs (-9223372036854775808) (-1)).width - 1) : Nat) : Int) ∧
    (divs (-9223372036854775808) (-1)).sx 1 = -1 := by decide

theorem witness_MarshalInIsTheInverse_length : (List.replicate 52 (0 : Byte)).length = 13 * ((regs32 []).width / 8) := by
  decide

theorem witness_MarshalInIsTheInverse_refused :
    (List.replicate 103 (0 : Byte)).length ≠ 13 * ((p3at .handling []).regs.width / 8) ∧
    (p3at .handling []).hostPhase = .handling := by decide

theorem witness_MarshalOut_boundary : 7 < (regs64 []).width / 8 ∧ 3 < (regs32 []).width / 8 := by decide

theorem witness_GasSubClampsOnUnderflow : (4 : BitVec 64).toNat < 5 ∧ 5 ≤ (5 : BitVec 64).toNat := by decide

theorem witness_step_answers_running : ∃ t, step p1 = .next t := ⟨_, rfl⟩

theorem witness_step_answers_suspended_charge :
    ∃ t, step (p3at .pending [.charge]) = .next t ∧ (p3at .pending [.charge]).status = .awaitingHostCall 3 :=
  ⟨_, rfl, rfl⟩

theorem witness_step_answers_suspended_spend :
    ∃ t, step (p3at .handling [.spendGas 90]) = .next t ∧ t.status = .awaitingHostCall 3 ∧ t.gas = 0 := ⟨_, rfl, rfl, rfl⟩

/-- R29 and R201: a handler that overspends is left without gas and must end; the instance is not OutOfGas. -/
theorem test_handler_overspends : (nextOf (step (p3at .handling [.spendGas 90]))).map
    (fun t => (t.gas, t.status, t.hostPhase)) = some (0, .awaitingHostCall 3, .returned .haltRequested) := by decide

theorem test_handler_pays : (nextOf (step (p3at .handling [.spendGas 89]))).map (fun t => (t.gas, t.hostPhase)) =
    some (0, .handling) := by decide

/-- While P3's handler runs, the move listed first is the handler's next one. -/
theorem p3at_handlerMoves (move : HostMove) : (p3at .handling [move]).HandlerMoves move [] :=
  ⟨rfl, rfl, 3, _, rfl, rfl⟩

theorem witness_MarshalInIsTheInverse_moves :
    (p3at .handling [.setFromBytes (List.replicate 104 1)]).HandlerMoves (.setFromBytes (List.replicate 104 1)) [] ∧
    (List.replicate 104 (1 : Byte)).length = 13 * ((p3at .handling []).width / 8) ∧
    (p3at .handling [.setReg 12 (-1)]).HandlerMoves (.setReg 12 (-1)) [] :=
  ⟨p3at_handlerMoves _, by decide, p3at_handlerMoves _⟩

theorem witness_HostKeepsPcAndProgram_store :
    (p3at .handling [.store 16 [7, 8]]).HandlerMoves (.store 16 [7, 8]) [] ∧
    (∀ k < 2, (Memory.read [(16, 1), (17, 2)] (16 + k)).isSome = true) ∧ Memory.read [(16, 1)] (16 + 1) = none ∧
    faultsOn (p3at .handling []).memoryFaults .store 16 2 = false ∧ faultsOn [.touching .store 17 1] .store 16 2 = true :=
  ⟨p3at_handlerMoves _, by decide, by decide, by decide, by decide⟩

theorem witness_HostKeepsPcAndProgram_moves :
    (p3at .handling [.mapBytes 16 [7]]).HandlerMoves (.mapBytes 16 [7]) [] ∧
    (p3at .handling [.unmapBytes 16 1]).HandlerMoves (.unmapBytes 16 1) [] ∧
    (p3at .handling [.spendGas 89]).HandlerMoves (.spendGas 89) [] ∧ 89 ≤ (p3at .handling []).gas.toNat ∧
    (p3at .handling [.spendGas 90]).HandlerMoves (.spendGas 90) [] ∧ (p3at .handling []).gas.toNat < 90 ∧
    (p3at .handling [.handlerReturns .normal]).HandlerMoves (.handlerReturns .normal) [] ∧
    (p3at .handling [.setFaults [.touching .store 16 4]]).HandlerMoves (.setFaults [.touching .store 16 4]) [] :=
  ⟨p3at_handlerMoves _, p3at_handlerMoves _, p3at_handlerMoves _, by decide, p3at_handlerMoves _, by decide,
    p3at_handlerMoves _, p3at_handlerMoves _⟩

theorem witness_ForwardIsTheLeastDistanceToAStart : 7 ≤ l22.code.length ∧ 1 < l22.code.length ∧ 0 < l22.forward 1 := by
  decide

theorem witness_InstructionEndsAtTheNextStart : 6 < l22.code.length ∧ l22.code.length ≤ 7 ∧ 1 < l22.skip 4 := by decide

theorem witness_BackwardIsTheLeastDistanceToAStart : 6 < l22.code.length ∧ l22.backward 6 = some 2 ∧
    1 < (prog [0, 0, 0] [0, 0, 1]).code.length ∧ (prog [0, 0, 0] [0, 0, 1]).backward 1 = none := by decide

theorem witness_FetchFallsBackToTrap_mapped : 0 < p1.program.code.length ∧ p1.program.mask.getD 0 false = true ∧
    p1.program.code[0]? = some 0xC8 ∧ referenceMap.lookup 0xC8 = some .add := by decide

theorem witness_FetchFallsBackToTrap_unmapped : (prog [0xFF] [1]).code[0]? = some 0xFF ∧
    ∀ e ∈ referenceMap, e.1 ≠ 0xFF := by decide

theorem witness_FetchFallsBackToTrap_outside : p1.program.code.length ≤ 4 ∧ p1.program.mask.getD 1 false = false := by
  decide

theorem witness_RegisterAndLengthNibblesAreClamped : ((clampR 12).val, (clampR 13).val, clampL 4, clampL 5) = (12, 12, 4, 4) ∧
    12 ≤ 15 ∧ 12 < 13 ∧ 13 ≤ 15 ∧ 4 ≤ 15 ∧ 4 < 5 := by decide

/-- Two programs that differ in the high nibble of an ADD's second operand byte only, and the ADD both read. -/
theorem witness_RegisterAndLengthNibblesAreClamped_ignored :
    (prog [0xC8, 0xFD, 0x0E] [1, 0, 0]).codeByte 1 = (prog [0xC8, 0xFD, 0xFE] [1, 0, 0]).codeByte 1 ∧
    ((prog [0xC8, 0xFD, 0x0E] [1, 0, 0]).codeByte 2).toNat % 16 =
      ((prog [0xC8, 0xFD, 0xFE] [1, 0, 0]).codeByte 2).toNat % 16 ∧
    (decode referenceMap (prog [0xC8, 0xFD, 0xFE] [1, 0, 0]) 0).instr = .add 12 12 12 := by decide

/-- A code byte at the end and past it, a slice cut at the end, an extended immediate of eight bytes, and six operand
bytes. -/
theorem witness_ImmediateKeepsItsBytesAndPads_code :
    2 < (prog [0x0A, 1, 2] [1, 0, 0]).code.length ∧ (prog [0x0A, 1, 2] [1, 0, 0]).code.length ≤ 3 ∧
    ((prog [0x0A, 1, 2] [1, 0, 0]).slice 1 4).length = 2 ∧ [1, 2, 3, 4, 5, 6, 7, (8 : Byte)].length ≤ 8 ∧
    5 < (prog [0x0A, 1, 2, 3, 4, 5, 6] [1]).skip 0 - 1 - 0 := by decide

theorem witness_ImmediateKeepsItsBytesAndPads : ([] : List Byte).length ≤ 3 ∧ ([1, 2, 3] : List Byte).length ≤ 3 := by decide

theorem witness_ImmediateReadsAsTheSignedBytes : 1 ≤ ([0x80] : List Byte).length ∧ ([0x80] : List Byte).length ≤ 4 ∧
    1 ≤ ([0, 0, 0, 0x80] : List Byte).length ∧ ([0, 0, 0, 0x80] : List Byte).length ≤ 4 := by decide

theorem witness_ImmediateReadsAsTheSignedBytes_shortest : ([0x80, 0x00] : List Byte).length ≤ 4 ∧ imm32 [0x80, 0x00] = 0x80 ∧
    imm32 [0x80, 0x00, 0x00] = 0x80 ∧ ([0x80, 0x00] : List Byte).length = (immBytes 0x80).length := by decide

theorem witness_DecodingUndoesEncoding : referenceMap.WellFormed ∧
    encodeWith referenceMap (.add 3 2 1) = some [0xC8, 0x12, 0x03] ∧ p1.program.Holds 0 [0xC8, 0x12, 0x03] := by
  refine ⟨by decide, by decide, by decide, by decide, fun k h0 h3 => ?_, by decide⟩
  have hk : k = 1 ∨ k = 2 := by simp at h3; omega
  rcases hk with rfl | rfl <;> decide

theorem witness_ImageDecodingUndoesEncoding :
    ({ p1.program with jumpTable := [5, 0x1234] } : Program).WellFormed ∧ 2 ≤ 4 ∧
    ({ p1.program with jumpTable := [5, 0x1234] } : Program).jumpTable.length < 2 ^ 64 ∧
    (∀ entry ∈ ({ p1.program with jumpTable := [5, 0x1234] } : Program).jumpTable, entry.toNat < 256 ^ 2) ∧
    (2 = 0 → ({ p1.program with jumpTable := [5, 0x1234] } : Program).jumpTable = []) :=
  ⟨⟨by decide, by decide⟩, by decide, by decide, by simp, by decide⟩

theorem witness_ImageIsAcceptedExactlyWhenItsSectionsFit :
    readVarint .reference [0x00, 0x00, 0x01, 0x00, 0x01] = some (0, [0x00, 0x01, 0x00, 0x01]) ∧
    readVarint .reference [0x01, 0x00, 0x01] = some (1, [0x00, 0x01]) ∧
    (programOf [0x00, 0x00, 0x01, 0x00, 0x01]).isSome = true := by decide

theorem witness_StepRunsTheDecodedInstruction_paid : p1.status = .running ∧
    (decode p1.params.opcodeMap p1.program p1.pc.toNat).instr = .add 3 2 1 ∧
    gasCost p1.params.gasCost .add p1.regs ≤ p1.gas.toNat := by decide

theorem witness_StepRunsTheDecodedInstruction_unpaid :
    ({ p1 with gas := 0 } : State).gas.toNat < gasCost p1.params.gasCost .add p1.regs := by decide

theorem witness_UnpaidInstructionHasNoEffect : ({ p1 with gas := 0 } : State).status = .running ∧
    ({ p1 with gas := 0 } : State).gas.toNat < ({ p1 with gas := 0 } : State).cost := by decide

theorem witness_InvalidFetchPanicsInPlace_non_start : p1.status = .running ∧ p1.program.isStart 1 = false ∧
    gasCost p1.params.gasCost .trap p1.regs ≤ p1.gas.toNat := by decide

theorem witness_InvalidFetchPanicsInPlace_unmapped : (inst (regs64 []) (prog [0xFF] [1])).status = .running ∧
    ∀ e ∈ referenceMap, e.1 ≠ (prog [0xFF] [1]).codeByte 0 := by decide

theorem witness_EventsHaveOnlyTheirCauses :
    [shown (step { p1 with pc := 3 }), shown (step { p1 with gas := 0 }), shown (step p3),
     shown (step (p3at (.returned .haltRequested) [.halt])), shown (step p1)].map (·.map (·.2.2.1)) =
    [some .panicked, some .outOfGas, some (.awaitingHostCall 3), some .halted, some .running] := by decide

theorem witness_EndedInstancesTakeNoStep : (halted []).status = .halted ∧
    (p3at .pending []).status = .awaitingHostCall 3 ∧
    hostDescriptor (p3at .pending []).params 3 = some { index := 3, cost := .constant 10 } ∧
    (p3at .pending []).hostMoves = [] := by decide

theorem witness_EndedInstancesTakeNoStep_other : faultOf (step { p1 with status := .panicked }) = some .endedPanicked ∧
    faultOf (step { p1 with status := .outOfGas }) = some .endedOutOfGas := by decide

theorem witness_InstructionsNeitherReadNorWriteDataMemory : ∃ t, p1.status = .running ∧ step p1 = .next t :=
  ⟨_, rfl, rfl⟩

theorem witness_InvariantIsKeptByEveryStep : (p3at .handling [.mapBytes 3 [1, 2]]).Inv ∧
    (nextOf (step (p3at .handling [.mapBytes 3 [1, 2]]))).map State.memory = some [(3, 1), (4, 2)] := by decide

/-- A launch of program P1's image. -/
def launchP1 (image : List Byte) : LaunchArgs :=
  { params := defaultParams, codec := .reference, image := image, regs0 := regs64 [(1, 5), (2, 10)], pc0 := 0, gas0 := 100,
    memory0 := [], faults0 := [], host0 := [] }

theorem witness_LaunchHoldsWhatTheHostSupplies_ok :
    ∃ p, decodeImage (launchP1 [0x00, 0x00, 0x04, 0xC8, 0x12, 0x03, 0x00, 0x09]).codec
      (launchP1 [0x00, 0x00, 0x04, 0xC8, 0x12, 0x03, 0x00, 0x09]).image = .ok p ∧ p.code.length = 4 ∧
      (launchP1 []).params.opcodeMap.WellFormed ∧ Memory.wf (launchP1 []).memory0 :=
  ⟨_, rfl, by decide, by decide, by decide⟩

theorem witness_LaunchHoldsWhatTheHostSupplies_fault :
    ∃ e, decodeImage (launchP1 [0x80]).codec (launchP1 [0x80]).image = .error e := ⟨_, rfl⟩

theorem witness_PcStaysAtABoundary : p1.Inv ∧ p1.AtBoundary ∧ ({ p1 with pc := 4 } : State).AtBoundary :=
  ⟨by decide, .inl (by decide), .inr (by decide)⟩

theorem witness_RunEndsWithinItsGas : ∀ op rf, 1 ≤ gasCost p1.params.gasCost op rf := fun _ _ => Nat.le_refl 1

theorem witness_HostCallIsChargedUpFront : (p3at .pending [.charge]).hostPhase = .pending ∧
    hostDescriptor (p3at .pending [.charge]).params 3 = some { index := 3, cost := .constant 10 } ∧
    (p3at .pending [.charge]).hostMoves = .charge :: [] ∧
    hostCost { index := 3, cost := .constant 10 } (p3at .pending [.charge]).regs ≤ 89 ∧
    9 < hostCost { index := 3, cost := .constant 10 } (p3at .pending [.charge]).regs := by decide

theorem witness_HostResumesHaltsOrIsStuck : (p3at (.returned .normal) [.resume]).hostMoves = .resume :: [] ∧
    (p3at (.returned .haltRequested) [.halt]).hostMoves = .halt :: [] ∧
    (p3at .pending []).status = .awaitingHostCall 3 ∧
    ∀ d ∈ (p3at .pending []).params.registry, d.index ≠ 4 := by decide

theorem witness_HostKeepsPcAndProgram : (p3at .pending [.charge]).Suspended ∧ (∃ t, step (p3at .pending [.charge]) = .next t) ∧
    (∃ t, step (p3at .handling [.setReg 7 42]) = .next t) ∧ (∃ t, step (p3at (.returned .normal) [.resume]) = .next t) ∧
    ∃ t, step (p3at (.returned .haltRequested) [.halt]) = .next t :=
  ⟨⟨3, rfl⟩, ⟨_, rfl⟩, ⟨_, rfl⟩, ⟨_, rfl⟩, ⟨_, rfl⟩⟩

theorem test_second_charge_refused : refusalOf (step (p3at .handling [.charge])) = some (.hostMoveOutOfTurn .charge) := by
  decide

theorem witness_HaltResultIsReadOrEmpty : (halted [(0x1000, 1)]).params.haltRetRegs = (7, 8) ∧
    (halted [(0x1000, 1)]).status = .halted ∧ p1.status ≠ .halted ∧ 1 < (halted [(0x1000, 1)]).ux 8 % 2 ^ 32 ∧
    Memory.read (halted [(0x1000, 1)]).memory ((halted [(0x1000, 1)]).ux 7 % 2 ^ 32 + 1) = none := by decide

theorem witness_HaltResultIsReadOrEmpty_rules : faultsOn (halted []).memoryFaults .load 0x1000 4 = false ∧
    faultsOn [.exactly .load 0x1000 4] .load 0x1000 4 = true := by decide

theorem witness_HaltResultIsReadOrEmpty_readable : ∀ k < 4,
    (Memory.read (halted [(0x1000, 1), (0x1001, 2), (0x1002, 3), (0x1003, 4)]).memory (0x1000 + k)).isSome = true := by
  decide

theorem witness_InstancesShareOnlyTheProgram : ∃ after, stepInstance 1 [p1, p1] = .next after ∧
    ∀ s ∈ [p1, p1], s.program = p1.program :=
  ⟨_, rfl, by simp⟩

end Sys2Proof.Tests
end

section
/-! SUPPORT. Facts about the decoder's helpers, the register file, the host's moves and the gas counter that the
statements of 10_state.md turn on. -/

namespace Sys2Proof

/-- The wrapped integer as an integer: the non-negative remainder (00_scope.md R7). -/
theorem natCast_wrap (N : Nat) (z : Int) : (wrap N z : Int) = z % ((2 ^ N : Nat) : Int) :=
  Int.toNat_of_nonneg (Int.emod_nonneg z (by positivity))

theorem bytesOf_getElem? {n k : Nat} (v : Nat) (h : k < n) :
    (bytesOf n v)[k]? = some (BitVec.ofNat 8 (v / 256 ^ k)) := by
  induction n generalizing v k with
  | zero => omega
  | succ n ih =>
    cases k with
    | zero => simp [bytesOf]
    | succ k => simp [bytesOf, ih (v / 256) (Nat.lt_of_succ_lt_succ h), Nat.div_div_eq_div_mul, pow_succ']

/-- In a concatenation of blocks of one length, the `i`-th slice of that length is the `i`-th block. -/
theorem take_drop_flatMap {α β : Type} {f : α → List β} {n : Nat} (hf : ∀ a, (f a).length = n) {l : List α} {i : Nat}
    {a : α} (h : l[i]? = some a) : ((l.flatMap f).drop (i * n)).take n = f a := by
  induction l generalizing i with
  | nil => simp at h
  | cons b l ih =>
    cases i with
    | zero =>
      obtain rfl : b = a := by simpa using h
      simp [List.take_left' (hf b)]
    | succ i =>
      have hlen : (i + 1) * n = (f b).length + i * n := by rw [hf, Nat.succ_mul, Nat.add_comm]
      rw [List.flatMap_cons, hlen, List.drop_length_add_append, ih (by simpa using h)]

namespace Machine

/-! ## The register file as 13 registers of `W/8` bytes -/

/-- The width and the unsigned views determine a register file. -/
theorem RegFile.eq_of_ux {a b : RegFile} (hw : a.width = b.width) (h : ∀ r, a.ux r = b.ux r) : a = b := by
  cases a <;> cases b
  case w32.w32 x y => exact congrArg RegFile.w32 (Vector.ext fun i hi => BitVec.eq_of_toNat_eq (h ⟨i, hi⟩))
  case w64.w64 x y => exact congrArg RegFile.w64 (Vector.ext fun i hi => BitVec.eq_of_toNat_eq (h ⟨i, hi⟩))
  all_goals simp [RegFile.width] at hw

/-- A register's pattern takes exactly its `W/8` bytes. -/
theorem RegFile.two_pow_width (rf : RegFile) : 2 ^ rf.width = 256 ^ (rf.width / 8) := by
  rcases rf.width_cases with h | h <;> rw [h] <;> norm_num

/-- A written register reads back unsigned as the integer's remainder (R22). -/
theorem RegFile.natCast_write_ux_same (rf : RegFile) (r : Reg) (z : Int) :
    ((rf.write r z).ux r : Int) = z % ((2 ^ rf.width : Nat) : Int) := by
  rw [RegFile.write_ux_same, natCast_wrap]

theorem RegFile.write_sx_other (rf : RegFile) {r q : Reg} (z : Int) (h : q ≠ r) : (rf.write r z).sx q = rf.sx q := by
  simp only [RegFile.sx, RegFile.write_width, rf.write_ux_other z h]

theorem RegFile.sx_eq (rf : RegFile) (r : Reg) :
    rf.sx r = if rf.ux r < 2 ^ (rf.width - 1) then (rf.ux r : Int) else (rf.ux r : Int) - ((2 ^ rf.width : Nat) : Int) :=
  sView_eq rf.width_pos (rf.ux_lt r)

/-! ## Marshalling out (10_state.md R25) -/

@[simp] theorem RegFile.getBytes_length (rf : RegFile) : rf.getBytes.length = 13 * (rf.width / 8) := by
  simp only [RegFile.getBytes, List.length_flatMap, bytesOf_length, List.map_const', List.sum_replicate,
    List.length_finRange, smul_eq_mul]

/-- The bytes of register `r` stand at its place in index order. -/
theorem RegFile.getBytes_slice (rf : RegFile) (r : Reg) :
    (rf.getBytes.drop (r.val * (rf.width / 8))).take (rf.width / 8) = bytesOf (rf.width / 8) (rf.ux r) :=
  take_drop_flatMap (fun _ => bytesOf_length _ _) (by simp)

/-! ## Marshalling in (10_state.md R26) -/

/-- Writes one after the other keep the width. -/
theorem RegFile.foldl_write_width (f : Reg → Int) (rs : List Reg) (rf : RegFile) :
    (rs.foldl (fun acc r => acc.write r (f r)) rf).width = rf.width := by
  induction rs generalizing rf with
  | nil => rfl
  | cons r rs ih => rw [List.foldl_cons, ih, RegFile.write_width]

/-- Writes one after the other set the listed registers and no others, whatever the order and the repetitions. -/
theorem RegFile.foldl_write_ux (f : Reg → Int) (rs : List Reg) (rf : RegFile) (i : Reg) :
    (rs.foldl (fun acc r => acc.write r (f r)) rf).ux i = if i ∈ rs then wrap rf.width (f i) else rf.ux i := by
  induction rs generalizing rf with
  | nil => simp
  | cons r rs ih =>
    rw [List.foldl_cons, ih]
    by_cases hi : i = r
    · subst hi; simp
    · simp [hi, rf.write_ux_other (f r) hi]

/-- `W/8` bytes fit a register. -/
theorem RegFile.littleEndian_take_lt (rf : RegFile) (bytes : List Byte) :
    littleEndian (bytes.take (rf.width / 8)) < 2 ^ rf.width := by
  rw [rf.two_pow_width]
  exact (littleEndian_lt _).trans_le (Nat.pow_le_pow_right (by decide) (List.length_take_le _ _))

/-- What marshalling in answers: nothing for a wrong length, else a file of the same width in which every register is the
number its `W/8` bytes are. -/
theorem RegFile.setFromBytes_spec {rf : RegFile} {bytes : List Byte} (h : bytes.length = 13 * (rf.width / 8)) :
    ∃ rf', rf.setFromBytes bytes = some rf' ∧ rf'.width = rf.width ∧
      ∀ i : Reg, rf'.ux i = littleEndian ((bytes.drop (i.val * (rf.width / 8))).take (rf.width / 8)) := by
  refine ⟨rf.setEach bytes (List.finRange 13), if_pos h, RegFile.foldl_write_width _ _ _, fun i => ?_⟩
  rw [RegFile.setEach, RegFile.foldl_write_ux, if_pos (List.mem_finRange i), wrap_of_lt (rf.littleEndian_take_lt _)]

theorem RegFile.setFromBytes_of_length_ne {rf : RegFile} {bytes : List Byte} (h : bytes.length ≠ 13 * (rf.width / 8)) :
    rf.setFromBytes bytes = none := if_neg h

/-- Marshalling in undoes marshalling out. -/
theorem RegFile.setFromBytes_getBytes (rf : RegFile) : rf.setFromBytes rf.getBytes = some rf := by
  obtain ⟨rf', hset, hwidth, hux⟩ := RegFile.setFromBytes_spec rf.getBytes_length
  have hback : ∀ r, rf'.ux r = rf.ux r := fun r => by
    rw [hux, rf.getBytes_slice, littleEndian_bytesOf, ← rf.two_pow_width, Nat.mod_eq_of_lt (rf.ux_lt r)]
  rw [hset, RegFile.eq_of_ux hwidth hback]

/-! ## The handler's writes of registers (60_exceptions.md R208) -/

theorem hostMove_setReg {d : HostDescriptor} {s : State} (h : s.hostPhase = .handling) (r : Reg) (z : Int) :
    hostMove d s (.setReg r z) = .next (s.writeReg r z) := by
  simp only [hostMove, h]

theorem hostMove_setFromBytes {d : HostDescriptor} {s : State} (h : s.hostPhase = .handling) (bytes : List Byte) :
    hostMove d s (.setFromBytes bytes) = hostSetFromBytes bytes s := by
  simp only [hostMove, h]

theorem hostSetFromBytes_of_some {s : State} {bytes : List Byte} {rf : RegFile} (h : s.regs.setFromBytes bytes = some rf) :
    hostSetFromBytes bytes s = .next { s with regs := rf } := by
  simp only [hostSetFromBytes, h]

theorem hostSetFromBytes_of_none {s : State} {bytes : List Byte} (h : s.regs.setFromBytes bytes = none) :
    hostSetFromBytes bytes s = .refused (.marshalLength bytes.length) := by
  simp only [hostSetFromBytes, h]

/-- A new register file, with one host move used up, changes nothing else. -/
theorem writesRegistersOnly_regs (s : State) (rest : List HostMove) (rf : RegFile) :
    WritesRegistersOnly rest s { s with regs := rf, hostMoves := rest } :=
  ⟨⟨rfl, rfl, rfl, rfl, rfl⟩, rfl, rfl, rfl, rfl⟩

/-- A step in which the handler writes one register. -/
theorem step_setReg {s : State} {r : Reg} {z : Int} {rest : List HostMove} (h : s.HandlerMoves (.setReg r z) rest) :
    step s = .next { s with regs := s.regs.write r z, hostMoves := rest } := by
  obtain ⟨d, hstep⟩ := step_of_handlerMoves h
  obtain ⟨hphase, _⟩ := h
  exact hstep.trans (hostMove_setReg (s := { s with hostMoves := rest }) hphase r z)

/-- A step in which the handler marshals in the right number of bytes. -/
theorem step_setFromBytes {s : State} {bytes : List Byte} {rf : RegFile} {rest : List HostMove}
    (h : s.HandlerMoves (.setFromBytes bytes) rest) (hset : s.regs.setFromBytes bytes = some rf) :
    step s = .next { s with regs := rf, hostMoves := rest } := by
  obtain ⟨d, hstep⟩ := step_of_handlerMoves h
  obtain ⟨hphase, _⟩ := h
  exact hstep.trans ((hostMove_setFromBytes (s := { s with hostMoves := rest }) hphase bytes).trans
    (hostSetFromBytes_of_some hset))

/-! ## The gas counter over a step (10_state.md R28) -/

/-- While Running, a step pays for its instruction through `Gas.sub`. -/
theorem step_gas_of_running {s t : State} (hs : s.status = .running) (h : step s = .next t) :
    t.gas = (gasSub s.gas s.cost).1 := by
  rcases step_cases h with ⟨_, hlt, rfl⟩ | ⟨_, hle, hexec⟩ | ⟨k, _, _, _, hk, _⟩
  · rw [gasSub_of_lt hlt]
  · obtain ⟨_, _, _, hgas, _⟩ := exec_next_keeps hexec
    rw [hgas, gasSub_of_le hle]
  · rw [hs] at hk; cases hk

/-- While suspended, gas is what it was, or `Gas.sub` of the call's cost or of what the handler spends. -/
theorem step_gas_of_awaiting {s t : State} {k : BitVec 32} (hs : s.status = .awaitingHostCall k)
    (h : step s = .next t) :
    t.gas = s.gas ∨
      (∃ d, hostDescriptor s.params k = some d ∧ s.hostMoves = .charge :: t.hostMoves ∧
        t.gas = (gasSub s.gas (hostCost d s.regs)).1) ∨
      ∃ amount, s.hostMoves = .spendGas amount :: t.hostMoves ∧ t.gas = (gasSub s.gas amount).1 := by
  rcases step_cases h with ⟨hr, _⟩ | ⟨hr, _⟩ | ⟨index, d, move, rest, hindex, hd, hm, hmove⟩
  · rw [hs] at hr; cases hr
  · rw [hs] at hr; cases hr
  · obtain rfl : k = index := by simpa [hs] using hindex
    obtain ⟨_, _, _, hrest, hgas, _⟩ := hostMove_next hmove
    cases hgas with
    | keeps hg _ => exact .inl hg
    | resumes _ hg _ => exact .inl hg
    | halts _ hg _ => exact .inl hg
    | charges _ hg _ => exact .inr (.inl ⟨d, hd, by rw [hm, hrest], hg⟩)
    | spends _ hg _ => exact .inr (.inr ⟨_, by rw [hm, hrest], hg⟩)

/-! ## The invariant over a host move -/

/-- A host move keeps memory in its canonical form, whether it writes, maps or unmaps. -/
theorem hostMove_memory_wf {d : HostDescriptor} {s t : State} {move : HostMove} (h : hostMove d s move = .next t)
    (hwf : Memory.wf s.memory) : Memory.wf t.memory := by
  obtain ⟨_, _, _, _, _, hmem, _⟩ := hostMove_next h
  rcases hmem with e | ⟨addr, bytes, e⟩ | ⟨addr, len, e⟩ <;> rw [e]
  · exact hwf
  · exact Memory.putAll_wf addr bytes hwf
  · exact Memory.remove_wf addr len hwf

theorem hostMove_inv {d : HostDescriptor} {s t : State} {move : HostMove} (h : hostMove d s move = .next t)
    (hinv : s.Inv) : t.Inv := by
  obtain ⟨hparams, hprogram, _⟩ := hostMove_next h
  obtain ⟨hmap, hprog, hmem⟩ := hinv
  exact ⟨hparams ▸ hmap, hprogram ▸ hprog, hostMove_memory_wf h hmem⟩

end Machine

end Sys2Proof
end

section
/-! The obligations of 10_state.md, settled. -/

namespace Sys2Proof.Machine

/-- Settles O51: each kind of step keeps the fields the invariant speaks of, but for a host move's change of memory, which
keeps the canonical form. -/
theorem invariantIsKeptByEveryStep : Obligations.InvariantIsKeptByEveryStep := by
  intro s t hinv h
  rcases step_cases h with ⟨_, _, rfl⟩ | ⟨_, _, hexec⟩ | ⟨_, _, _, _, _, _, _, hmove⟩
  · exact hinv
  · obtain ⟨hparams, hprogram, hmemory, _⟩ := exec_next_keeps hexec
    exact State.Inv_of_eq hparams hprogram hmemory hinv
  · exact hostMove_inv hmove hinv

/-- Settles O28: the signed view is read from the pattern written, so it needs no write rule of its own. -/
theorem registerWriteChangesBothViewsOfOneRegister : Obligations.RegisterWriteChangesBothViewsOfOneRegister := by
  intro rf r z
  refine ⟨rf.natCast_write_ux_same r z, fun q => ?_,
    fun q hq => ⟨rf.write_ux_other z hq, rf.write_sx_other z hq⟩, rf.write_width r z⟩
  rw [RegFile.sx_eq, RegFile.write_width]

/-- Settles O29: byte `k` of register `i` is byte `k` of its slice of the marshalled bytes. -/
theorem marshalOutIsLittleEndianInIndexOrder : Obligations.MarshalOutIsLittleEndianInIndexOrder := by
  intro rf
  refine ⟨rf.getBytes_length, fun i k hk => ?_⟩
  calc rf.getBytes[i.val * (rf.width / 8) + k]?
      = ((rf.getBytes.drop (i.val * (rf.width / 8))).take (rf.width / 8))[k]? := by
        rw [List.getElem?_take_of_lt hk, List.getElem?_drop]
    _ = some (BitVec.ofNat 8 (rf.ux i / 256 ^ k)) := by rw [rf.getBytes_slice, bytesOf_getElem? _ hk]
    _ = some (BitVec.ofNat 8 (rf.ux i / 2 ^ (8 * k) % 256)) := by
        rw [pow_mul]
        exact congrArg some (BitVec.eq_of_toNat_eq (by simp))

/-- Settles O30: the register file's own facts, carried over to the handler's two moves. -/
theorem marshalInIsTheInverse : Obligations.MarshalInIsTheInverse := by
  intro rf bytes
  refine ⟨RegFile.setFromBytes_spec, fun hne => ⟨RegFile.setFromBytes_of_length_ne hne, ?_⟩,
    rf.setFromBytes_getBytes, ?_, ?_⟩
  · rintro d s rfl hphase
    rw [hostMove_setFromBytes hphase, hostSetFromBytes_of_none (RegFile.setFromBytes_of_length_ne hne)]
  · intro s rest hmoves hlen
    obtain ⟨rf', hset, hwidth, hux⟩ := RegFile.setFromBytes_spec hlen
    exact ⟨_, step_setFromBytes hmoves hset, writesRegistersOnly_regs s rest rf', hwidth, hux⟩
  · intro s r z rest hmoves
    exact ⟨_, step_setReg hmoves, writesRegistersOnly_regs s rest _, s.regs.write_width r z,
      s.regs.natCast_write_ux_same r z, fun q hq => s.regs.write_ux_other z hq⟩

/-- Settles O32: every change of gas is a `Gas.sub`, which never leaves more than there was. -/
theorem gasNeverIncreases : Obligations.GasNeverIncreases := by
  intro s t h
  refine ⟨?_, fun hs => step_gas_of_running hs h, fun k hs => step_gas_of_awaiting hs h⟩
  have hle : ∀ amount, t.gas = (gasSub s.gas amount).1 → t.gas.toNat ≤ s.gas.toNat := fun amount e =>
    e ▸ gasSub_fst_le s.gas amount
  rcases step_cases h with ⟨hs, _⟩ | ⟨hs, _⟩ | ⟨k, _, _, _, hs, _⟩
  · exact hle _ (step_gas_of_running hs h)
  · exact hle _ (step_gas_of_running hs h)
  · rcases step_gas_of_awaiting hs h with e | ⟨_, _, _, e⟩ | ⟨_, _, e⟩
    · rw [e]
    · exact hle _ e
    · exact hle _ e

/-- Settles O31, by the two cases of `Gas.sub`; the difference 0 falls in the second. -/
theorem gasSubClampsOnUnderflow : Obligations.GasSubClampsOnUnderflow := by
  intro gas amount
  refine ⟨gasSub_of_lt, fun hle => ?_⟩
  rw [gasSub_of_le hle]
  exact ⟨rfl, toNat_gas_sub hle⟩

/-- Settles O48: `step` branches on the status, and the host's turn on the moves that are left. -/
theorem endedInstancesTakeNoStep : Obligations.EndedInstancesTakeNoStep := by
  intro s
  refine ⟨fun h => ?_, fun h => ?_, fun h => ?_, fun k d h hd hnone => ?_⟩
  · simp only [step, h]
  · simp only [step, h]
  · simp only [step, h]
  · rw [step_of_awaiting h]
    simp only [hostTurn, hd, hnone]

/-- Settles O52: the reset state is a literal; only the registers and the gas table are read through functions. -/
theorem resetMeetsTheInvariant : Obligations.ResetMeetsTheInvariant := by
  have hregs : ∀ r, State.reset.ux r = 0 := by decide
  exact ⟨by decide, .inr rfl, rfl, rfl, hregs, rfl, rfl, rfl, rfl, fun _ => rfl, rfl, rfl, rfl, rfl, rfl,
    fun _ _ => rfl, rfl, rfl, rfl, rfl⟩

end Sys2Proof.Machine
end

section
/-! SUPPORT. What a running instance's step does with the parts of the state that no instruction accesses: data memory,
the collaborator's fault rules and the jump table (10_state.md R37, 20_memory.md R56). -/

namespace Sys2Proof.Machine

/-- The state with another data memory, other fault rules and another jump table. -/
def State.withData (s : State) (m : Memory) (rules : List FaultRule) (table : List (BitVec 32)) : State :=
  { s with memory := m, memoryFaults := rules, program := { s.program with jumpTable := table } }

variable {s t : State} (m : Memory) (rules : List FaultRule) (table : List (BitVec 32))

@[simp] theorem State.withData_gas : (s.withData m rules table).gas = s.gas := rfl

@[simp] theorem State.withData_decoded : (s.withData m rules table).decoded = s.decoded :=
  decode_jumpTable s.params.opcodeMap s.program table s.pc.toNat

@[simp] theorem State.withData_cost : (s.withData m rules table).cost = s.cost :=
  congrArg (fun d : Decoded => gasCost s.params.gasCost d.op s.regs) (s.withData_decoded m rules table)

/-- The sequential advance reads the program's mask, not its jump table. -/
theorem State.withData_advance : (s.withData m rules table).advance = s.advance.withData m rules table :=
  congrArg (fun n => ({ s with pc := s.pc + BitVec.ofNat 32 n } : State).withData m rules table)
    (s.program.skip_jumpTable table s.pc.toNat)

theorem State.withData_retire (rD : Reg) (z : Int) :
    (s.withData m rules table).retire rD z = .next ((s.writeReg rD z).advance.withData m rules table) :=
  congrArg Host.Outcome.next ((s.writeReg rD z).withData_advance m rules table)

/-- The result of an instruction comes from its registers and immediates: with other data it retires the same value in the
same register. -/
theorem exec_cases_withData (i : Instr) (s : State) :
    (∃ rD z, exec i s = s.retire rD z ∧
      exec i (s.withData m rules table) = (s.withData m rules table).retire rD z) ∨
    i = .trap ∨ ∃ imm, i = .ecalli imm := by
  cases i
  case trap => exact .inr (.inl rfl)
  case ecalli imm => exact .inr (.inr ⟨imm, rfl⟩)
  case divU rD rA rB | remU rD rA rB =>
    by_cases hzero : s.ux rB = 0
    · exact .inl ⟨rD, _, if_pos hzero, if_pos hzero⟩
    · exact .inl ⟨rD, _, if_neg hzero, if_neg hzero⟩
  case divS rD rA rB | remS rD rA rB =>
    by_cases hzero : s.sx rB = 0
    · exact .inl ⟨rD, _, if_pos hzero, if_pos hzero⟩
    by_cases hover : s.sx rA = -(minPattern s.width : Int) ∧ s.sx rB = -1
    · exact .inl ⟨rD, _, (if_neg hzero).trans (if_pos hover), (if_neg hzero).trans (if_pos hover)⟩
    · exact .inl ⟨rD, _, (if_neg hzero).trans (if_neg hover), (if_neg hzero).trans (if_neg hover)⟩
  all_goals exact .inl ⟨_, _, rfl, rfl⟩

/-- Executing an instruction commutes with a change of data. -/
theorem exec_withData {i : Instr} (h : exec i s = .next t) :
    exec i (s.withData m rules table) = .next (t.withData m rules table) := by
  rcases exec_cases_withData m rules table i s with ⟨rD, z, he, hdata⟩ | rfl | ⟨imm, rfl⟩
  · cases he.symm.trans h
    rw [hdata, State.withData_retire]
  · cases h; rfl
  · cases h
    exact congrArg (fun u : State => Host.Outcome.next (u.suspend imm)) (s.withData_advance m rules table)

/-- The step of a running instance commutes with a change of data. -/
theorem step_withData (hs : s.status = .running) (h : step s = .next t) :
    step (s.withData m rules table) = .next (t.withData m rules table) := by
  rw [step_of_running (s := s.withData m rules table) hs]
  rcases step_cases h with ⟨_, hlt, rfl⟩ | ⟨_, hle, hexec⟩ | ⟨_, _, _, _, hwait, _⟩
  · exact cycle_of_lt (by simpa using hlt)
  · rw [cycle_of_le (by simpa using hle), State.withData_decoded, State.withData_cost]
    exact exec_withData m rules table hexec
  · rw [hs] at hwait; cases hwait

/-- The step of a running instance changes neither memory nor which requests fault. -/
theorem step_keeps_data_of_running (hs : s.status = .running) (h : step s = .next t) :
    t.memory = s.memory ∧ t.memoryFaults = s.memoryFaults := by
  rcases step_cases h with ⟨_, _, rfl⟩ | ⟨_, _, hexec⟩ | ⟨_, _, _, _, hwait, _⟩
  · exact ⟨rfl, rfl⟩
  · obtain ⟨_, _, hmemory, _, _, hfaults⟩ := exec_next_keeps hexec
    exact ⟨hmemory, hfaults⟩
  · rw [hs] at hwait; cases hwait

/-- No step, of the block or of the host, changes the program or the parameters. -/
theorem step_keeps_program_params (h : step s = .next t) : t.program = s.program ∧ t.params = s.params := by
  rcases step_cases h with ⟨_, _, rfl⟩ | ⟨_, _, hexec⟩ | ⟨_, _, _, _, _, _, _, hmove⟩
  · exact ⟨rfl, rfl⟩
  · obtain ⟨hparams, hprogram, _⟩ := exec_next_keeps hexec
    exact ⟨hprogram, hparams⟩
  · obtain ⟨hparams, hprogram, _⟩ := hostMove_next hmove
    exact ⟨hprogram, hparams⟩

end Sys2Proof.Machine
end

section
/-! The obligations of 20_memory.md, settled. -/

namespace Sys2Proof.Machine

/-- Settles O50: `State.withData` is the change of data the statement makes, and a running step commutes with it. -/
theorem instructionsNeitherReadNorWriteDataMemory : Obligations.InstructionsNeitherReadNorWriteDataMemory := by
  intro s t m rules table hs h
  obtain ⟨hmemory, hfaults⟩ := step_keeps_data_of_running hs h
  exact ⟨fun _ => by rw [hmemory], hfaults, step_withData m rules table hs h⟩

/-- Settles O49: what a fetch decodes depends on the program and the opcode map alone, and every step keeps both. -/
theorem codeIsNeverWritten : Obligations.CodeIsNeverWritten := by
  intro s t h
  obtain ⟨hprogram, hparams⟩ := step_keeps_program_params h
  exact ⟨hprogram, hparams, fun _ => by rw [hprogram, hparams]⟩

end Sys2Proof.Machine
end

section
/-! SUPPORT. The mask's distances and instruction lengths (30_encoding.md section 2): each is determined by the instruction
starts around it. -/

namespace Sys2Proof

variable {p : Program} {i k pc : Nat}

theorem Program.isStart_of_lt (h : i < p.code.length) : p.isStart i = p.mask.getD i false := by
  simp [Program.isStart, h]

theorem Program.isStart_of_le (h : p.code.length ≤ i) : p.isStart i = false := by
  simp [Program.isStart, h]

theorem Program.lt_length_of_isStart (h : p.isStart i = true) : i < p.code.length :=
  Nat.lt_of_not_le fun hle => by simp [Program.isStart_of_le hle] at h

/-- The forward scan gives the distance to the first instruction start, or its bound where there is none before it. -/
theorem Program.scanForward_eq_iff (p : Program) (steps i k : Nat) :
    p.scanForward steps i = k ↔
      k ≤ steps ∧ (p.isStart (i + k) = true ∨ k = steps) ∧ ∀ j, j < k → p.isStart (i + j) = false := by
  induction steps generalizing i k with
  | zero => cases k <;> simp [Program.scanForward]
  | succ steps ih =>
    rw [Program.scanForward]
    cases hi : p.isStart i <;> cases k
    case false.zero | true.zero => simp [hi]
    case true.succ k =>
      rw [Nat.forall_lt_succ_left]
      simp [hi]
    case false.succ k =>
      rw [Nat.forall_lt_succ_left]
      simp [ih, hi, Nat.add_assoc, Nat.add_comm 1]

/-- `forward(i)` is the least distance to an instruction start or to the end of code (R75). -/
theorem Program.forward_eq_iff (hi : i ≤ p.code.length) :
    p.forward i = k ↔ i + k ≤ p.code.length ∧ (p.isStart (i + k) = true ∨ i + k = p.code.length) ∧
      ∀ j, j < k → p.isStart (i + j) = false := by
  rw [Program.forward, p.scanForward_eq_iff, show k ≤ p.code.length - i ↔ i + k ≤ p.code.length by omega,
    show k = p.code.length - i ↔ i + k = p.code.length by omega]

theorem Program.forward_eq_zero_iff (hi : i ≤ p.code.length) :
    p.forward i = 0 ↔ p.isStart i = true ∨ i = p.code.length := by
  simp [Program.forward_eq_iff hi, hi]

/-- An instruction in the code reaches exactly to the next instruction start or the end of code (R78). -/
theorem Program.skip_eq_iff (h : pc < p.code.length) :
    p.skip pc = k ↔ 1 ≤ k ∧ pc + k ≤ p.code.length ∧
      (p.isStart (pc + k) = true ∨ pc + k = p.code.length) ∧ ∀ j, 0 < j → j < k → p.isStart (pc + j) = false := by
  rw [Program.skip, if_pos h]
  cases k with
  | zero => simp
  | succ k =>
    have hshift : ∀ j, pc + (j + 1) = pc + 1 + j := fun j => by omega
    rw [Nat.add_comm, Nat.add_right_cancel_iff, Program.forward_eq_iff h, hshift k]
    refine ⟨fun ⟨hle, hend, hnone⟩ => ⟨by omega, hle, hend, fun j h0 hj => ?_⟩,
      fun ⟨_, hle, hend, hnone⟩ => ⟨hle, hend, fun j hj => ?_⟩⟩
    · obtain ⟨j, rfl⟩ : ∃ j', j = j' + 1 := ⟨j - 1, by omega⟩
      rw [hshift]; exact hnone j (by omega)
    · rw [← hshift]; exact hnone (j + 1) (by omega) (by omega)

/-- Outside the code the length is 1 (R78). -/
theorem Program.skip_of_le (h : p.code.length ≤ pc) : p.skip pc = 1 := if_neg (by omega)

/-- `backward(i)` is the least distance back to an instruction start (R76). -/
theorem Program.backward_eq_some_iff (p : Program) (i k : Nat) :
    p.backward i = some k ↔
      k ≤ i ∧ p.isStart (i - k) = true ∧ ∀ j, j < k → p.isStart (i - j) = false := by
  induction i generalizing k with
  | zero =>
    rw [Program.backward]
    cases h0 : p.isStart 0 <;> cases k <;> simp [h0]
  | succ i ih =>
    rw [Program.backward]
    cases hi : p.isStart (i + 1) <;> cases k
    case false.zero | true.zero => simp [hi]
    case true.succ k =>
      rw [Nat.forall_lt_succ_left]
      simp [hi]
    case false.succ k =>
      rw [Nat.forall_lt_succ_left]
      simp [ih, hi]

/-- `backward(i)` is refused exactly where no index up to `i` is an instruction start (R76). -/
theorem Program.backward_eq_none_iff (p : Program) (i : Nat) :
    p.backward i = none ↔ ∀ j, j ≤ i → p.isStart j = false := by
  induction i with
  | zero => simp [Program.backward]
  | succ i ih =>
    rw [Program.backward]
    cases hi : p.isStart (i + 1)
    case true => simpa using ⟨i + 1, Nat.le_refl _, hi⟩
    case false => simp [ih, Nat.le_succ_iff, or_imp, forall_and, hi]

end Sys2Proof
end

section
/-! SUPPORT. The immediate decoder and its inverse (30_encoding.md R86 to R88, R111): a short immediate keeps its bytes and
is padded to four. -/

namespace Sys2Proof

theorem littleEndian_replicate_zero (n : Nat) : littleEndian (List.replicate n 0x00) = 0 := by
  induction n with
  | zero => rfl
  | succ n ih => rw [List.replicate_succ, littleEndian, ih]; rfl

/-- All-ones bytes are one less than what their number of bytes can hold. -/
theorem littleEndian_replicate_ones (n : Nat) : littleEndian (List.replicate n 0xFF) + 1 = 256 ^ n := by
  induction n with
  | zero => rfl
  | succ n ih =>
    have hff : (0xFF : Byte).toNat = 255 := rfl
    rw [List.replicate_succ, littleEndian, hff, pow_succ, ← ih]
    omega

/-- The four bytes a short immediate is padded to (R86). -/
def padded (bytes : List Byte) : List Byte := bytes ++ List.replicate (4 - bytes.length) (padByte bytes)

theorem padded_length {bytes : List Byte} (h : bytes.length ≤ 4) : (padded bytes).length = 4 := by
  rw [padded, List.length_append, List.length_replicate]
  omega

theorem toNat_imm32 {bytes : List Byte} (h : bytes.length ≤ 4) : (imm32 bytes).toNat = littleEndian (padded bytes) := by
  have hlt := littleEndian_lt (padded bytes)
  rw [padded_length h] at hlt
  exact Nat.mod_eq_of_lt hlt

@[simp] theorem bytesLE_length (k : Imm) : (bytesLE k).length = 4 := bytesOf_length 4 k.toNat

/-- Re-serializing a decoded immediate gives the padded bytes (R88). -/
theorem bytesLE_imm32 {bytes : List Byte} (h : bytes.length ≤ 4) : bytesLE (imm32 bytes) = padded bytes := by
  rw [bytesLE, toNat_imm32 h, ← padded_length h, bytesOf_littleEndian]

/-- The supplied bytes come first in the re-serialized immediate (R88). -/
theorem take_bytesLE_imm32 {bytes : List Byte} (h : bytes.length ≤ 4) :
    (bytesLE (imm32 bytes)).take bytes.length = bytes := by
  rw [bytesLE_imm32 h, padded, List.take_left]

/-- Decoding the four bytes of an immediate gives it back. -/
theorem imm32_bytesLE (k : Imm) : imm32 (bytesLE k) = k := by
  apply BitVec.eq_of_toNat_eq
  have hpad : padded (bytesLE k) = bytesLE k := by simp [padded]
  rw [toNat_imm32 (bytesLE_length k).le, hpad, bytesLE, littleEndian_bytesOf]
  exact Nat.mod_eq_of_lt k.isLt

/-- At most eight bytes are not cut by the extended-width decoder (R89). -/
theorem toNat_imm64 {bytes : List Byte} (h : bytes.length ≤ 8) : (imm64 bytes).toNat = littleEndian bytes :=
  Nat.mod_eq_of_lt ((littleEndian_lt bytes).trans_le (Nat.pow_le_pow_right (by decide) h))

/-! ## The signed view -/

theorem padByte_concat (bytes : List Byte) (last : Byte) :
    padByte (bytes ++ [last]) = if 0x80 ≤ last.toNat then 0xFF else 0x00 := by
  rw [padByte, List.getLastD_concat]

/-- The last byte's top bit is the top bit of the number. -/
theorem le_littleEndian_concat_iff (bytes : List Byte) (last : Byte) :
    2 ^ (8 * (bytes.length + 1) - 1) ≤ littleEndian (bytes ++ [last]) ↔ 0x80 ≤ last.toNat := by
  have hlow := littleEndian_lt bytes
  have hpow : 2 ^ (8 * (bytes.length + 1) - 1) = 0x80 * 256 ^ bytes.length := by
    rw [show 8 * (bytes.length + 1) - 1 = 7 + 8 * bytes.length by omega, pow_add, pow_mul]
    norm_num
  have hval : littleEndian (bytes ++ [last]) = littleEndian bytes + last.toNat * 256 ^ bytes.length := by
    simp [littleEndian_append, littleEndian, Nat.mul_comm]
  rw [hpow, hval, ← Nat.le_div_iff_mul_le (by positivity), Nat.add_mul_div_right _ _ (by positivity),
    Nat.div_eq_of_lt hlow, Nat.zero_add]

/-- The number a short immediate stands for: that of its own bytes, with ones above them where the last byte's top bit is
set (R86). -/
theorem toNat_imm32_concat {bytes : List Byte} (last : Byte) (h : bytes.length ≤ 3) :
    (imm32 (bytes ++ [last])).toNat = littleEndian (bytes ++ [last]) +
      if 0x80 ≤ last.toNat then 2 ^ 32 - 256 ^ (bytes.length + 1) else 0 := by
  have hlen : (bytes ++ [last]).length = bytes.length + 1 := by simp
  rw [toNat_imm32 (by omega), padded, littleEndian_append, padByte_concat, hlen]
  congr 1
  split
  · have hones := littleEndian_replicate_ones (4 - (bytes.length + 1))
    have hsplit : 256 ^ (bytes.length + 1) * 256 ^ (4 - (bytes.length + 1)) = 2 ^ 32 := by
      rw [← pow_add, Nat.add_sub_of_le (by omega)]
      norm_num
    rw [← hsplit, ← hones, Nat.mul_add_one, Nat.add_sub_cancel]
  · rw [littleEndian_replicate_zero, Nat.mul_zero]

/-- The signed view of a short immediate is the signed reading of its bytes at their own width (R86). -/
theorem toInt_imm32_concat {bytes : List Byte} (last : Byte) (h : bytes.length ≤ 3) :
    (imm32 (bytes ++ [last])).toInt = sView (8 * (bytes.length + 1)) (littleEndian (bytes ++ [last])) := by
  have hval : littleEndian (bytes ++ [last]) < 2 ^ (8 * (bytes.length + 1)) := by
    rw [pow_mul]
    simpa using littleEndian_lt (bytes ++ [last])
  have htop := le_littleEndian_concat_iff bytes last
  have hhalf : 2 ^ (8 * (bytes.length + 1)) = 2 * 2 ^ (8 * (bytes.length + 1) - 1) := by
    rw [← pow_succ']
    rfl
  have hfit : 2 ^ (8 * (bytes.length + 1)) ≤ 2 ^ 32 := Nat.pow_le_pow_right (by decide) (by omega)
  rw [sView_eq (by omega) hval, BitVec.toInt_eq_toNat_cond, toNat_imm32_concat last h,
    show 256 ^ (bytes.length + 1) = 2 ^ (8 * (bytes.length + 1)) from (pow_mul 2 8 _).symm]
  generalize 2 ^ (8 * (bytes.length + 1)) = A at *
  generalize 2 ^ (8 * (bytes.length + 1) - 1) = B at *
  split_ifs <;> omega

/-! ## The shortest bytes (R111) -/

/-- `immBytes(k)` is the fewest first bytes of the immediate that decode to it. -/
theorem immBytes_spec (k : Imm) : ∃ n, n ≤ 4 ∧ immBytes k = (bytesLE k).take n ∧ imm32 (immBytes k) = k ∧
    ∀ j, j < n → imm32 ((bytesLE k).take j) ≠ k := by
  have hfour : imm32 ((bytesLE k).take 4) = k := by
    rw [List.take_of_length_le (bytesLE_length k).le, imm32_bytesLE]
  obtain ⟨n, hn⟩ := Option.isSome_iff_exists.mp
    (List.find?_isSome (p := fun n => imm32 ((bytesLE k).take n) == k) |>.mpr
      ⟨4, List.mem_range.mpr (by decide : 4 < 5), beq_iff_eq.mpr hfour⟩)
  have himm : immBytes k = (bytesLE k).take n := by rw [immBytes, hn, Option.getD_some]
  obtain ⟨hdec, hmem, hleast⟩ := List.find?_range_eq_some.mp hn
  have hlt := List.mem_range.mp hmem
  exact ⟨n, by omega, himm, himm ▸ beq_iff_eq.mp hdec, fun j hj => by simpa using hleast j hj⟩

@[simp] theorem imm32_immBytes (k : Imm) : imm32 (immBytes k) = k := by
  obtain ⟨_, _, _, hdec, _⟩ := immBytes_spec k
  exact hdec

/-- No string that decodes to an immediate is shorter than `immBytes` of it, and one of the same length is that string:
every such string begins the immediate's four bytes. -/
theorem immBytes_least {k : Imm} {bytes : List Byte} (hlen : bytes.length ≤ 4) (hdec : imm32 bytes = k) :
    (immBytes k).length ≤ bytes.length ∧ (bytes.length = (immBytes k).length → bytes = immBytes k) := by
  obtain ⟨n, hn, himm, _, hleast⟩ := immBytes_spec k
  have hfirst : (bytesLE k).take bytes.length = bytes := hdec ▸ take_bytesLE_imm32 hlen
  have hcount : (immBytes k).length = n := by
    rw [himm, List.length_take, bytesLE_length, Nat.min_eq_left hn]
  rw [hcount]
  refine ⟨Nat.le_of_not_lt fun hlt => hleast _ hlt (by rw [hfirst, hdec]), fun he => ?_⟩
  rw [himm, ← he, hfirst]

end Sys2Proof
end

section
/-! SUPPORT. The code bytes an instruction is read from, and that reading undoes the encoder (30_encoding.md sections 3, 4
and 7). -/

namespace Sys2Proof

variable {p : Program} {i n k pc : Nat} {bytes : List Byte}

/-! ## Code bytes (R82, R91) -/

theorem Program.getElem?_code_of_lt (h : i < p.code.length) : p.code[i]? = some (p.codeByte i) := by
  rw [Program.codeByte, List.getD_eq_getElem?_getD, List.getElem?_eq_getElem h, Option.getD_some]

theorem Program.codeByte_of_le (h : p.code.length ≤ i) : p.codeByte i = 0 := by
  rw [Program.codeByte, List.getD_eq_getElem?_getD, List.getElem?_eq_none h, Option.getD_none]

@[simp] theorem Program.slice_length (p : Program) (i n : Nat) : (p.slice i n).length = min n (p.code.length - i) := by
  simp [Program.slice]

theorem Program.getElem?_slice (p : Program) (i : Nat) (h : k < n) : (p.slice i n)[k]? = p.code[i + k]? := by
  rw [Program.slice, List.getElem?_take_of_lt h, List.getElem?_drop]

/-- The tail of a slice is the slice one further on. -/
theorem Program.slice_of_slice_cons {b : Byte} (h : p.slice i (n + 1) = b :: bytes) : p.slice (i + 1) n = bytes := by
  have htail : (p.slice i (n + 1)).drop 1 = p.slice (i + 1) n := by
    rw [Program.slice, List.drop_take, List.drop_drop]
    rfl
  rw [← htail, h]
  rfl

/-- The first byte of a slice is the code byte at its index. -/
theorem Program.codeByte_of_slice_cons {b : Byte} (h : p.slice i (n + 1) = b :: bytes) : p.codeByte i = b := by
  have hget := p.getElem?_slice i n.succ_pos
  rw [h] at hget
  rw [Program.codeByte, List.getD_eq_getElem?_getD, ← Nat.add_zero i, ← hget]
  rfl

/-! ## Registers in their nibbles (R84, R111) -/

@[simp] theorem clampR_val (r : Reg) : clampR r.val = r := Fin.ext (Nat.min_eq_left (Nat.le_of_lt_succ r.isLt))

theorem toNat_nibbles (high low : Reg) : (nibbles high low).toNat = 16 * high.val + low.val :=
  Nat.mod_eq_of_lt (by omega)

@[simp] theorem regHi_nibbles (high low : Reg) : regHi (nibbles high low) = high := by
  rw [regHi, hi4, toNat_nibbles, show (16 * high.val + low.val) / 16 = high.val by omega, clampR_val]

@[simp] theorem regLo_nibbles (high low : Reg) : regLo (nibbles high low) = low := by
  rw [regLo, lo4, toNat_nibbles, show (16 * high.val + low.val) % 16 = low.val by omega, clampR_val]

@[simp] theorem regLo_ofNat (r : Reg) : regLo (BitVec.ofNat 8 r.val) = r := by
  rw [regLo, lo4, BitVec.toNat_ofNat, show r.val % 2 ^ 8 % 16 = r.val by omega, clampR_val]

/-! ## Fields read back from their encoding -/

/-- A field after a length-prefixed one of `n` bytes starts where that one ends. -/
theorem Program.immRest_add (p : Program) (pc before n : Nat) : p.immRest pc (before + n) =
    imm32 (p.slice (pc + (1 + before + n)) (min 4 (p.skip pc - 1 - before - n))) := by
  rw [Program.immRest, Program.immAt, Program.operandCount, Nat.sub_sub _ before n, Nat.add_assoc pc,
    Nat.add_assoc 1 before n]

/-- A field that takes all the operand bytes left reads back an encoded immediate. -/
theorem Program.immRest_of_slice {imm : Imm} {before : Nat} (hcount : p.operandCount pc - before = (immBytes imm).length)
    (hbytes : p.slice (pc + 1 + before) (immBytes imm).length = immBytes imm) : p.immRest pc before = imm := by
  rw [Program.immRest, Program.immAt, hcount, Nat.min_eq_right (immBytes_length imm), hbytes, imm32_immBytes]

theorem decodeArgs_oneImmediate_of_slice {imm : Imm} (hcount : p.operandCount pc = (immBytes imm).length)
    (hbytes : p.slice (pc + 1) (immBytes imm).length = immBytes imm) :
    decodeArgs p pc .oneImmediate = .oneImmediate imm := by
  rw [decodeArgs, Program.immRest_of_slice hcount hbytes]

theorem decodeArgs_twoRegistersOneImmediate_of_slice {rD rS : Reg} {imm : Imm}
    (hcount : p.operandCount pc = (encodeTwoImm rD rS imm).length)
    (hbytes : p.slice (pc + 1) (encodeTwoImm rD rS imm).length = encodeTwoImm rD rS imm) :
    decodeArgs p pc .twoRegistersOneImmediate = .twoRegistersOneImmediate rS rD imm := by
  have hregs : p.b1 pc = nibbles rS rD := Program.codeByte_of_slice_cons hbytes
  have himm : p.immRest pc 1 = imm :=
    Program.immRest_of_slice (by rw [hcount]; rfl) (Program.slice_of_slice_cons hbytes)
  rw [decodeArgs, hregs, himm, regHi_nibbles, regLo_nibbles]

theorem decodeArgs_threeRegisters_of_slice {rD rA rB : Reg}
    (hbytes : p.slice (pc + 1) (encodeThree rD rA rB).length = encodeThree rD rA rB) :
    decodeArgs p pc .threeRegisters = .threeRegisters rB rA rD := by
  have h1 : p.b1 pc = nibbles rB rA := Program.codeByte_of_slice_cons hbytes
  have h2 : p.b2 pc = BitVec.ofNat 8 rD.val := Program.codeByte_of_slice_cons (Program.slice_of_slice_cons hbytes)
  rw [decodeArgs, h1, h2, regHi_nibbles, regLo_nibbles, regLo_ofNat]

/-- The fields read from an instruction's own operand bytes make that instruction. -/
theorem instr_decodeArgs_of_slice (i : Instr) (hcount : p.operandCount pc = i.operandBytes.length)
    (hbytes : p.slice (pc + 1) i.operandBytes.length = i.operandBytes) :
    i.op.instr (decodeArgs p pc i.op.shape) = i := by
  cases i
  case trap => rfl
  case ecalli imm => exact congrArg (Op.instr .ecalli) (decodeArgs_oneImmediate_of_slice hcount hbytes)
  case shlImm | shrImm | sarImm | negAddImm | shlImmAlt | shrImmAlt | sarImmAlt =>
    dsimp only [Instr.op, Op.shape]
    rw [decodeArgs_twoRegistersOneImmediate_of_slice hcount hbytes, Op.instr]
  all_goals
    dsimp only [Instr.op, Op.shape]
    rw [decodeArgs_threeRegisters_of_slice hbytes, Op.instr]

/-! ## Fetch (R80, R81) -/

theorem OpcodeMap.opOf_of_lookup {m : OpcodeMap} {b : Byte} {op : Op} (h : m.lookup b = some op) : m.opOf b = op := by
  rw [OpcodeMap.opOf, h, Option.getD_some]

theorem OpcodeMap.opOf_of_unmapped {m : OpcodeMap} {b : Byte} (h : ∀ e ∈ m, e.1 ≠ b) : m.opOf b = .trap := by
  have hnone : m.lookup b = none := List.lookup_eq_none_iff.mpr fun e he => bne_iff_ne.mpr (h e he).symm
  rw [OpcodeMap.opOf, hnone, Option.getD_none]

/-- In a map without a repeated byte, the byte written for a mnemonic stands for that mnemonic. -/
theorem OpcodeMap.opOf_of_byteOf {m : OpcodeMap} (hm : m.WellFormed) {op : Op} {b : Byte} (h : m.byteOf op = some b) :
    m.opOf b = op := by
  obtain ⟨⟨_, _⟩, hfind, rfl⟩ := Option.map_eq_some_iff.mp h
  obtain rfl : _ = op := by simpa using List.find?_some hfind
  obtain ⟨before, after, rfl⟩ := List.append_of_mem (List.mem_of_find?_eq_some hfind)
  refine OpcodeMap.opOf_of_lookup (List.lookup_eq_some_iff.mpr ⟨before, after, rfl, fun e he => bne_iff_ne.mpr ?_⟩)
  rw [OpcodeMap.WellFormed, List.map_append, List.map_cons, List.nodup_middle, List.nodup_cons] at hm
  obtain ⟨hfresh, _⟩ := hm
  exact fun hsame => hfresh (List.mem_append_left _ (List.mem_map.mpr ⟨e, he, hsame.symm⟩))

theorem fetch_of_start {m : OpcodeMap} (h : p.isStart pc = true) : fetch m p pc = m.opOf (p.codeByte pc) := if_pos h

theorem fetch_of_not_start {m : OpcodeMap} (h : p.isStart pc = false) : fetch m p pc = .trap := if_neg (by simp [h])

/-! ## Decode undoes encode -/

/-- Bytes that stand as one instruction are exactly as long as the instruction. -/
theorem Program.Holds.skip_eq (h : p.Holds pc bytes) (hpos : 1 ≤ bytes.length) : p.skip pc = bytes.length := by
  obtain ⟨hbytes, hstart, hnone, hend⟩ := h
  have hlt := Program.lt_length_of_isStart hstart
  have hfit : pc + bytes.length ≤ p.code.length := by
    have hlen := congrArg List.length hbytes
    rw [Program.slice_length] at hlen
    omega
  exact (Program.skip_eq_iff hlt).mpr ⟨hpos, hfit, hend.symm, hnone⟩

/-- An encoding is the byte the map gives the mnemonic, followed by the operand bytes. -/
theorem encodeWith_eq_some {m : OpcodeMap} {i : Instr} (h : encodeWith m i = some bytes) :
    ∃ b, m.byteOf i.op = some b ∧ bytes = b :: i.operandBytes := by
  obtain ⟨b, hb, rfl⟩ := Option.map_eq_some_iff.mp h
  exact ⟨b, hb, rfl⟩

/-- What is fetched settles the decoded mnemonic and instruction. -/
theorem decode_of_fetch {m : OpcodeMap} {op : Op} (h : fetch m p pc = op) :
    (decode m p pc).op = op ∧ (decode m p pc).instr = op.instr (decodeArgs p pc op.shape) := by
  subst h
  exact ⟨rfl, rfl⟩

end Sys2Proof
end

section
/-! SUPPORT. The program image (30_encoding.md section 1): the varint codec, the three sections, and when an image is
accepted. -/

namespace Sys2Proof

/-! ## Varints (R71) -/

/-- A byte that starts with exactly `l` ones, by the range it lies in. -/
theorem leadingOnes_eq {b : Byte} {l : Nat} (hl : l ≤ 7) (hlo : 2 ^ 8 - 2 ^ (8 - l) ≤ b.toNat)
    (hhi : b.toNat < 2 ^ 8 - 2 ^ (7 - l)) : leadingOnes b = l := by
  simp only [leadingOnes]
  interval_cases l <;> simp only [Nat.reducePow, Nat.reduceSub] at hlo hhi <;> split_ifs <;> omega

/-- How many bytes follow the first one: the least number that holds the value, and 8 where fewer do not. -/
theorem varintExtra_spec {v : Nat} (hv : v < 2 ^ 64) :
    varintExtra v ≤ 7 ∧ v < 2 ^ (7 * (varintExtra v + 1)) ∨ varintExtra v = 8 ∧ v < 256 ^ 8 := by
  unfold varintExtra
  cases h : (List.range 8).find? fun l => decide (v < 2 ^ (7 * (l + 1))) with
  | none => exact .inr ⟨rfl, hv⟩
  | some l =>
    obtain ⟨hfit, hmem, _⟩ := List.find?_range_eq_some.mp h
    exact .inl ⟨Nat.le_of_lt_succ (List.mem_range.mp hmem), of_decide_eq_true hfit⟩

/-- A varint is read from its first byte and the bytes that its leading ones announce. -/
theorem referenceVarint_cons_append {b : Byte} {low : List Byte} (rest : List Byte) (h : leadingOnes b = low.length) :
    referenceVarint (b :: (low ++ rest)) =
      some (if low.length = 8 then littleEndian low
        else (b.toNat % 2 ^ (7 - low.length)) * 2 ^ (8 * low.length) + littleEndian low, rest) := by
  simp [referenceVarint, h]

/-- The first byte of a varint: its leading ones announce the bytes to come, and the value's high bits stand below
them. -/
theorem varintHead_spec {l high : Nat} (hl : l ≤ 7) (hhigh : high < 2 ^ (7 - l)) :
    leadingOnes (BitVec.ofNat 8 (2 ^ 8 - 2 ^ (8 - l) + high)) = l ∧
    (BitVec.ofNat 8 (2 ^ 8 - 2 ^ (8 - l) + high)).toNat % 2 ^ (7 - l) = high := by
  have hdouble : 2 ^ (8 - l) = 2 * 2 ^ (7 - l) := by rw [← pow_succ', show 7 - l + 1 = 8 - l by omega]
  have hmax : 2 ^ (8 - l) ≤ 2 ^ 8 := Nat.pow_le_pow_right (by decide) (by omega)
  have hval : (BitVec.ofNat 8 (2 ^ 8 - 2 ^ (8 - l) + high)).toNat = 2 ^ 8 - 2 ^ (8 - l) + high :=
    Nat.mod_eq_of_lt (by omega)
  have hones : 2 ^ (7 - l) ∣ 2 ^ 8 - 2 ^ (8 - l) :=
    Nat.dvd_sub (pow_dvd_pow 2 (by omega)) (pow_dvd_pow 2 (by omega))
  refine ⟨leadingOnes_eq hl (by rw [hval]; omega) (by rw [hval]; omega), ?_⟩
  rw [hval, Nat.add_mod, Nat.mod_eq_zero_of_dvd hones, Nat.zero_add, Nat.mod_mod, Nat.mod_eq_of_lt hhigh]

/-- The reference decoder reads the shortest varint of a value back, whatever follows it. -/
theorem referenceVarint_encodeVarint {v : Nat} (hv : v < 2 ^ 64) (rest : List Byte) :
    referenceVarint (encodeVarint v ++ rest) = some (v, rest) := by
  rcases varintExtra_spec hv with ⟨hl, hfit⟩ | ⟨hl, hfit⟩
  · have hlt : v / 2 ^ (8 * varintExtra v) < 2 ^ (7 - varintExtra v) := by
      rw [Nat.div_lt_iff_lt_mul (by positivity), ← pow_add,
        show 7 - varintExtra v + 8 * varintExtra v = 7 * (varintExtra v + 1) by omega]
      exact hfit
    obtain ⟨hones, hhigh⟩ := varintHead_spec hl hlt
    rw [encodeVarint, if_neg (by omega), List.cons_append, referenceVarint_cons_append rest (by simpa using hones),
      bytesOf_length, if_neg (by omega), hhigh, littleEndian_bytesOf,
      show 256 ^ varintExtra v = 2 ^ (8 * varintExtra v) from (pow_mul 2 8 _).symm, Nat.div_add_mod']
  · rw [encodeVarint, if_pos hl, List.cons_append, referenceVarint_cons_append rest (by rw [bytesOf_length]; rfl),
      bytesOf_length, if_pos rfl, littleEndian_bytesOf, Nat.mod_eq_of_lt hfit]

/-! ## The sections (R70, R72, R73) -/

/-- The number with these `n` bits, bit 0 first. -/
def bitSum (f : Nat → Bool) (n : Nat) : Nat := ((List.range n).map fun k => if f k then 2 ^ k else 0).sum

theorem bitSum_succ (f : Nat → Bool) (n : Nat) : bitSum f (n + 1) = Nat.bit (f 0) (bitSum (fun k => f (k + 1)) n) := by
  have hdouble : ∀ k, (if f (k + 1) then 2 ^ (k + 1) else 0) = 2 * if f (k + 1) then 2 ^ k else 0 := fun k => by
    split <;> simp [pow_succ']
  rw [bitSum, List.range_succ_eq_map, List.map_cons, List.sum_cons, List.map_map, Nat.bit_val, bitSum,
    ← List.sum_map_mul_left, Nat.add_comm]
  simp only [Function.comp_def, Nat.succ_eq_add_one, hdouble]
  cases f 0 <;> rfl

theorem testBit_bitSum (f : Nat → Bool) {n i : Nat} (hi : i < n) : (bitSum f n).testBit i = f i := by
  induction n generalizing f i with
  | zero => omega
  | succ n ih =>
    rw [bitSum_succ]
    cases i with
    | zero => exact Nat.testBit_bit_zero _ _
    | succ i => rw [Nat.testBit_bit_succ, ih _ (by omega)]

/-- Bit `i` of a packed mask byte is the mask bit of code index `8j + i` (R73). -/
theorem getLsbD_packByte (mask : List Bool) (j : Nat) {i : Nat} (hi : i < 8) :
    (packByte mask j).getLsbD i = mask.getD (8 * j + i) false := by
  have hbits : packByte mask j = BitVec.ofNat 8 (bitSum (fun k => mask.getD (8 * j + k) false) 8) := rfl
  rw [hbits, BitVec.getLsbD_ofNat, decide_eq_true hi, Bool.true_and, testBit_bitSum _ hi]

theorem getElem?_maskBits {L i : Nat} (maskBytes : List Byte) (hi : i < L) :
    (maskBits L maskBytes)[i]? = some ((maskBytes.getD (i / 8) 0).getLsbD (i % 8)) := by
  rw [maskBits, List.getElem?_map, List.getElem?_range hi, Option.map_some]

@[simp] theorem maskBits_length (L : Nat) (maskBytes : List Byte) : (maskBits L maskBytes).length = L := by
  simp [maskBits]

/-- The mask bits read from the packed mask are the mask. -/
theorem maskBits_packByte (mask : List Bool) :
    maskBits mask.length ((List.range (maskLength mask.length)).map (packByte mask)) = mask := by
  refine List.ext_getElem? fun i => ?_
  rcases Nat.lt_or_ge i mask.length with hi | hi
  · have hbyte : i / 8 < maskLength mask.length := by unfold maskLength; omega
    rw [getElem?_maskBits _ hi, List.getD_eq_getElem?_getD, List.getElem?_map, List.getElem?_range hbyte,
      Option.map_some, Option.getD_some, getLsbD_packByte mask _ (Nat.mod_lt i (by decide)), Nat.div_add_mod,
      List.getD_eq_getElem?_getD, List.getElem?_eq_getElem hi, Option.getD_some]
  · rw [List.getElem?_eq_none (by simpa using hi), List.getElem?_eq_none hi]

theorem jumpEntries_length (n z : Nat) (table : List Byte) :
    (jumpEntries n z table).length = if z = 0 then 0 else n := by
  unfold jumpEntries
  split <;> simp

theorem getElem?_jumpEntries {n z k : Nat} (hz : z ≠ 0) (table : List Byte) (hk : k < n) :
    (jumpEntries n z table)[k]? = some (BitVec.ofNat 32 (littleEndian ((table.drop (k * z)).take z))) := by
  rw [jumpEntries, if_neg hz, List.getElem?_map, List.getElem?_range hk, Option.map_some]

/-- The entries read from a table written with items wide enough are the entries. -/
theorem jumpEntries_flatMap {z : Nat} (hz : z ≠ 0) {entries : List (BitVec 32)}
    (hfit : ∀ entry ∈ entries, entry.toNat < 256 ^ z) :
    jumpEntries entries.length z (entries.flatMap fun entry => bytesOf z entry.toNat) = entries := by
  refine List.ext_getElem? fun k => ?_
  rcases Nat.lt_or_ge k entries.length with hk | hk
  · have hentry := List.getElem?_eq_getElem hk
    rw [getElem?_jumpEntries hz _ hk, take_drop_flatMap (fun _ => bytesOf_length z _) hentry, littleEndian_bytesOf,
      Nat.mod_eq_of_lt (hfit _ (List.getElem_mem hk)), BitVec.ofNat_toNat, BitVec.setWidth_eq, hentry]
  · rw [List.getElem?_eq_none (by rw [jumpEntries_length, if_neg hz]; exact hk), List.getElem?_eq_none hk]

/-- The program in the sections after the header (R70). -/
def sectionsProgram (n z L : Nat) (body : List Byte) : Program :=
  { code := (body.drop (n * z)).take L
    mask := maskBits L (body.drop (n * z + L))
    jumpTable := jumpEntries n z (body.take (n * z)) }

theorem sectionsProgram_code_length {n z L : Nat} {body : List Byte} (h : body.length = n * z + L + maskLength L) :
    (sectionsProgram n z L body).code.length = L := by
  rw [sectionsProgram, List.length_take, List.length_drop]
  omega

/-- One mask bit per code byte, from the mask section with the least significant bit of each byte first (R73). -/
theorem getElem?_sectionsProgram_mask {n z L i : Nat} {body : List Byte} (h : body.length = n * z + L + maskLength L)
    (hi : i < L) : (sectionsProgram n z L body).mask[i]? =
      (body[n * z + L + i / 8]?).map fun b => (b.toNat / 2 ^ (i % 8) % 2 == 1) := by
  have hbyte : n * z + L + i / 8 < body.length := by
    rw [h, maskLength]
    omega
  simp only [sectionsProgram]
  rw [getElem?_maskBits _ hi, List.getD_eq_getElem?_getD, List.getElem?_drop, List.getElem?_eq_getElem hbyte,
    Option.map_some, Option.getD_some, ← BitVec.testBit_toNat, Nat.testBit_eq_decide_div_mod_eq]
  rfl

/-- The entries are the items of the table section in order (R72). -/
theorem getElem?_sectionsProgram_jumpTable {n z L k : Nat} (body : List Byte)
    (hk : k < (sectionsProgram n z L body).jumpTable.length) : (sectionsProgram n z L body).jumpTable[k]? =
      some (BitVec.ofNat 32 (littleEndian ((body.drop (k * z)).take z))) := by
  simp only [sectionsProgram, jumpEntries_length] at hk ⊢
  split at hk
  · omega
  · rename_i hz
    have hin : k * z + z ≤ n * z := by
      rw [← Nat.succ_mul]
      exact Nat.mul_le_mul_right z hk
    rw [getElem?_jumpEntries hz _ hk, List.drop_take, List.take_take, Nat.min_eq_left (by omega)]

/-- Sections are read exactly where they fit, and then in order (R70, R74). -/
theorem readSections_eq_ok_iff {n z L : Nat} {body : List Byte} {p : Program} :
    readSections n z L body = .ok p ↔ body.length = n * z + L + maskLength L ∧ p = sectionsProgram n z L body := by
  rcases Nat.lt_trichotomy body.length (n * z + L + maskLength L) with h | h | h
  · simp [readSections, h, h.ne]
  · simp [readSections, h, sectionsProgram, eq_comm]
  · simp [readSections, h, h.not_gt, h.ne']

/-- An image is accepted exactly where its header reads, the two limits hold, and its sections fit (R74). -/
theorem decodeImage_eq_ok_iff {codec : VarintCodec} {image : List Byte} {p : Program} :
    decodeImage codec image = .ok p ↔ ∃ n z rest L body, readVarint codec image = some (n, z :: rest) ∧
      readVarint codec rest = some (L, body) ∧ z.toNat ≤ 4 ∧ L < 2 ^ 32 ∧ readSections n z.toNat L body = .ok p := by
  constructor
  · intro h
    unfold decodeImage at h
    split at h
    · cases h
    · cases h
    · rename_i n z rest hn
      split at h
      · cases h
      · rename_i L body hL
        split_ifs at h with hz hlen
        exact ⟨n, z, rest, L, body, hn, hL, by omega, by omega, h⟩
  · rintro ⟨n, z, rest, L, body, hn, hL, hz, hlen, hsections⟩
    simp only [decodeImage, hn, hL]
    rw [if_neg (by omega), if_neg (by omega), hsections]

/-! ## The sections written for a program -/

/-- The three sections of an image (R70). -/
def sectionBytes (z : Nat) (p : Program) : List Byte :=
  p.jumpTable.flatMap (fun entry => bytesOf z entry.toNat) ++ p.code ++
    (List.range (maskLength p.code.length)).map (packByte p.mask)

theorem encodeImage_eq (z : Nat) (p : Program) : encodeImage z p =
    encodeVarint p.jumpTable.length ++ BitVec.ofNat 8 z :: (encodeVarint p.code.length ++ sectionBytes z p) := by
  simp only [encodeImage, sectionBytes, List.append_assoc, List.cons_append, List.nil_append]

theorem tableBytes_length (z : Nat) (entries : List (BitVec 32)) :
    (entries.flatMap fun entry => bytesOf z entry.toNat).length = entries.length * z := by
  simp [List.length_flatMap]

/-- The sections written for a program fit and are read back as the program. -/
theorem readSections_sectionBytes {p : Program} {z : Nat} (hmask : p.mask.length = p.code.length)
    (hfit : ∀ entry ∈ p.jumpTable, entry.toNat < 256 ^ z) (hzero : z = 0 → p.jumpTable = []) :
    readSections p.jumpTable.length z p.code.length (sectionBytes z p) = .ok p := by
  have htable := tableBytes_length z p.jumpTable
  have hentries : jumpEntries p.jumpTable.length z (p.jumpTable.flatMap fun entry => bytesOf z entry.toNat) =
      p.jumpTable := by
    by_cases hz : z = 0
    · rw [jumpEntries, if_pos hz, hzero hz]
    · exact jumpEntries_flatMap hz hfit
  refine readSections_eq_ok_iff.mpr ⟨by simp [sectionBytes, htable, Nat.add_assoc], ?_⟩
  rw [sectionsProgram, sectionBytes, List.append_assoc, ← List.drop_drop, List.drop_left' htable,
    List.take_left' htable, List.take_left, List.drop_left, hentries, ← hmask, maskBits_packByte]

end Sys2Proof
end

section
/-! SUPPORT. The pc over an instruction: the sequential advance goes from an instruction start to the next boundary
(30_encoding.md R78, 40_control.md R125). -/

namespace Sys2Proof.Machine

variable {s t : State}

/-- From an instruction start the advance reaches the next start or the end of code; it does not wrap, because the code is
shorter than `2^32` bytes. -/
theorem State.advance_atBoundary (hwf : s.program.WellFormed) (hstart : s.program.isStart s.pc.toNat = true) :
    s.advance.AtBoundary := by
  obtain ⟨_, hcode⟩ := hwf
  obtain ⟨_, hfit, hend, _⟩ := (Program.skip_eq_iff (Program.lt_length_of_isStart hstart)).mp rfl
  have hpc : s.advance.pc.toNat = s.pc.toNat + s.program.skip s.pc.toNat := by
    rw [State.advance_pc, State.skip, BitVec.toNat_add, BitVec.toNat_ofNat, Nat.add_mod_mod, Nat.mod_eq_of_lt (by omega)]
  rw [State.AtBoundary, hpc]
  exact hend

/-- Where the pc is not at an instruction start, the decoded instruction is TRAP (R80). -/
theorem State.decoded_instr_of_not_start (h : s.program.isStart s.pc.toNat = false) : s.decoded.instr = .trap := by
  obtain ⟨htrap, _⟩ := instr_control s.decoded
  exact htrap.mpr (fetch_of_not_start h)

/-- An instruction other than TRAP is at an instruction start, and so ends at a boundary; TRAP leaves the pc. -/
theorem exec_atBoundary {i : Instr} (hwf : s.program.WellFormed) (hb : s.AtBoundary)
    (htrap : s.program.isStart s.pc.toNat = false → i = .trap) (h : exec i s = .next t) : t.AtBoundary := by
  cases hstart : s.program.isStart s.pc.toNat with
  | false =>
    obtain rfl := htrap hstart
    cases h
    exact hb
  | true =>
    have hadvance := s.advance_atBoundary hwf hstart
    rcases exec_cases i s with ⟨rD, z, he⟩ | ⟨_, he⟩ | ⟨imm, _, he⟩ <;> rw [he] at h <;> cases h
    · exact hadvance
    · exact hb
    · exact hadvance

end Sys2Proof.Machine
end

section
/-! The obligations of 30_encoding.md, settled. -/

namespace Sys2Proof.Machine

/-- Settles O40: the mask gives the length and with it the operand bytes, and each encoded field reads back. -/
theorem decodingUndoesEncoding : Obligations.DecodingUndoesEncoding := by
  intro m i bytes p pc hm henc hholds
  obtain ⟨b, hb, rfl⟩ := encodeWith_eq_some henc
  have hskip := hholds.skip_eq (Nat.le_add_left 1 _)
  obtain ⟨hbytes, hstart, _⟩ := hholds
  have hfetch : fetch m p pc = i.op := by
    rw [fetch_of_start hstart, Program.codeByte_of_slice_cons hbytes, OpcodeMap.opOf_of_byteOf hm hb]
  have hcount : p.operandCount pc = i.operandBytes.length := by rw [Program.operandCount, hskip]; rfl
  obtain ⟨hop, hinstr⟩ := decode_of_fetch hfetch
  exact ⟨hinstr.trans (instr_decodeArgs_of_slice i hcount (Program.slice_of_slice_cons hbytes)), hop, hskip⟩

/-- Settles O42: each varint reads back whatever follows it, and then the sections do. -/
theorem imageDecodingUndoesEncoding : Obligations.ImageDecodingUndoesEncoding := by
  rintro p z ⟨hmask, hcode⟩ hz hcount hfit hzero
  have hwidth : (BitVec.ofNat 8 z).toNat = z := Nat.mod_eq_of_lt (by omega)
  refine decodeImage_eq_ok_iff.mpr ⟨p.jumpTable.length, BitVec.ofNat 8 z, encodeVarint p.code.length ++ sectionBytes z p,
    p.code.length, sectionBytes z p, ?_, ?_, by rwa [hwidth], hcode, ?_⟩
  · rw [encodeImage_eq]
    exact referenceVarint_encodeVarint hcount _
  · exact referenceVarint_encodeVarint (by omega) _
  · rw [hwidth]
    exact readSections_sectionBytes hmask hfit hzero

/-- Settles O54: only a paid instruction moves the pc, and an instruction that moves it was decoded at a start. -/
theorem pcStaysAtABoundary : Obligations.PcStaysAtABoundary := by
  rintro s t ⟨_, hwf, _⟩ hb h
  rcases step_cases h with ⟨_, _, rfl⟩ | ⟨_, _, hexec⟩ | ⟨_, _, _, _, _, _, _, hmove⟩
  · exact hb
  · exact exec_atBoundary (s := { s with gas := s.gas - BitVec.ofNat 64 s.cost }) hwf hb State.decoded_instr_of_not_start
      hexec
  · obtain ⟨_, hprogram, hpc, _⟩ := hostMove_next hmove
    rw [State.AtBoundary, hprogram, hpc]
    exact hb

/-- Settles O33, by the characterisation of `forward`: the first instruction start, or the end of code. -/
theorem forwardIsTheLeastDistanceToAStart : Obligations.ForwardIsTheLeastDistanceToAStart := by
  intro p i hi
  obtain ⟨hfit, hend, hnone⟩ := (Program.forward_eq_iff hi).mp rfl
  refine ⟨hfit, ?_, fun k hk => ⟨by omega, ?_⟩, Program.forward_eq_zero_iff hi, fun hlt => ?_⟩
  · refine hend.symm.imp_right fun hstart => ?_
    rwa [← Program.isStart_of_lt (Program.lt_length_of_isStart hstart)]
  · rw [← Program.isStart_of_lt (by omega)]
    exact hnone k hk
  · rw [Program.forward_eq_zero_iff hi, or_iff_left hlt.ne]

/-- Settles O34: the two cases of `skip`. -/
theorem instructionEndsAtTheNextStart : Obligations.InstructionEndsAtTheNextStart :=
  fun _ _ => ⟨fun h => (Program.skip_eq_iff h).mp rfl, Program.skip_of_le⟩

/-- Settles O35: up to `i`, inside the code, the mask alone tells the starts. -/
theorem backwardIsTheLeastDistanceToAStart : Obligations.BackwardIsTheLeastDistanceToAStart := by
  intro p i hi
  have hmask : ∀ j, p.isStart (i - j) = p.mask.getD (i - j) false := fun j => Program.isStart_of_lt (by omega)
  refine ⟨fun k => ?_, p.backward_eq_none_iff i⟩
  simp only [p.backward_eq_some_iff, hmask]

/-- Settles O38: the padded bytes of an immediate, the code bytes of a slice, and the fields by their definitions. -/
theorem immediateKeepsItsBytesAndPads : Obligations.ImmediateKeepsItsBytesAndPads := by
  refine ⟨fun bytes last h => ?_, rfl, fun _ => toNat_imm64, fun p i => ?_, by omega, ?_, fun pc offset => ?_⟩
  · have hlen : (bytes ++ [last]).length = bytes.length + 1 := by simp
    rw [bytesLE_imm32 (by omega), padded, padByte_concat, hlen, Nat.add_sub_add_right 3 1]
  · refine ⟨Program.getElem?_code_of_lt, Program.codeByte_of_le, fun n => ⟨p.slice_length i n, fun k hk => ?_⟩⟩
    rw [Program.slice_length] at hk
    exact p.getElem?_slice i (by omega)
  · rintro p pc _ _ rfl rfl
    refine ⟨rfl, ?_, rfl, ⟨_, _, _, rfl⟩, ⟨_, _, _, rfl⟩⟩
    rw [decodeArgs, Program.immRest_add, ← Nat.add_assoc]
    rfl
  · rw [offsetTarget, toNat_ofInt_eq_wrap, natCast_wrap]

/-- Settles O39: a non-empty string is its last byte after the others, and that byte decides the sign. -/
theorem immediateReadsAsTheSignedBytes : Obligations.ImmediateReadsAsTheSignedBytes := by
  refine ⟨fun bytes h1 h4 => ⟨?_, take_bytesLE_imm32 h4⟩,
    fun k => ⟨immBytes_length k, imm32_immBytes k, fun _ => immBytes_least⟩, rfl⟩
  obtain rfl | ⟨init, last, rfl⟩ := List.eq_nil_or_concat' bytes
  · cases h1
  · rw [List.length_append, List.length_singleton] at *
    exact toInt_imm32_concat last (by omega)

/-- Settles O43: what an accepted image's sections hold, read off slice by slice. -/
theorem imageIsAcceptedExactlyWhenItsSectionsFit : Obligations.ImageIsAcceptedExactlyWhenItsSectionsFit := by
  refine fun codec image => ⟨⟨?_, ?_⟩, ?_⟩
  · rintro ⟨p, h⟩
    obtain ⟨n, z, rest, L, body, hn, hL, hz, hlen, hsections⟩ := decodeImage_eq_ok_iff.mp h
    obtain ⟨hbody, _⟩ := readSections_eq_ok_iff.mp hsections
    exact ⟨n, z, rest, L, body, hn, hL, hz, hlen, hbody⟩
  · rintro ⟨n, z, rest, L, body, hn, hL, hz, hlen, hbody⟩
    exact ⟨_, decodeImage_eq_ok_iff.mpr
      ⟨n, z, rest, L, body, hn, hL, hz, hlen, readSections_eq_ok_iff.mpr ⟨hbody, rfl⟩⟩⟩
  · intro n z rest L body p hn hL h
    obtain ⟨n', z', rest', L', body', hn', hL', hz, hlen, hsections⟩ := decodeImage_eq_ok_iff.mp h
    obtain ⟨rfl, rfl, rfl⟩ : n = n' ∧ z = z' ∧ rest = rest' := by simpa [hn] using hn'
    obtain ⟨rfl, rfl⟩ : L = L' ∧ body = body' := by simpa [hL] using hL'
    obtain ⟨hbody, rfl⟩ := readSections_eq_ok_iff.mp hsections
    exact ⟨rfl, sectionsProgram_code_length hbody, maskBits_length L _, fun i hi => getElem?_sectionsProgram_mask hbody hi,
      jumpEntries_length n z.toNat _, fun k hk => getElem?_sectionsProgram_jumpTable body hk⟩

/-- Settles O36: a start is a marked index inside the code, and the map answers TRAP where it does not name the byte. -/
theorem fetchFallsBackToTrap : Obligations.FetchFallsBackToTrap := by
  refine fun m p pc => ⟨fun b hlt hmask hb => ?_, fun h => ?_, rfl⟩
  · have hbyte : p.codeByte pc = b := Option.some.inj ((Program.getElem?_code_of_lt hlt).symm.trans hb)
    rw [fetch_of_start ((Program.isStart_of_lt hlt).trans hmask), hbyte]
    exact ⟨fun op => OpcodeMap.opOf_of_lookup, OpcodeMap.opOf_of_unmapped⟩
  · refine fetch_of_not_start ?_
    rcases Nat.lt_or_ge pc p.code.length with hlt | hle
    · exact (Program.isStart_of_lt hlt).trans (h.resolve_left (by omega))
    · exact Program.isStart_of_le hle

/-- Settles O37: each shape's fields are those of its definition, up to where a field after a length-prefixed one starts. -/
theorem registerAndLengthNibblesAreClamped : Obligations.RegisterAndLengthNibblesAreClamped := by
  refine ⟨fun n _ => ⟨Nat.min_eq_left, fun h => Nat.min_eq_right h.le, Nat.min_eq_left, fun h => Nat.min_eq_right h.le⟩,
    ?_, fun p q pc h1 h2 => ?_, fun m p pc => ⟨rfl, rfl, rfl⟩, fun a b c imm => ?_⟩
  · rintro p pc _ _ _ rfl rfl rfl imm
    have hrest : ∀ a n, p.immRest pc (a + n) = imm (1 + a + n) (min 4 (p.skip pc - 1 - a - n)) := fun a n => by
      rw [Program.immRest_add]
    refine ⟨rfl, rfl, ?_, ?_, rfl, rfl, rfl, rfl, ?_, rfl⟩ <;>
      (rintro _ rfl; rw [decodeArgs, hrest]; rfl)
  · simp only [decodeArgs, Program.b1, Program.b2, regLo, lo4, h1, h2]
  · simp only [Op.instr, and_self]

/-- Settles O41: each word is evaluated by the decoder. -/
theorem referenceWordsDecode : Obligations.ReferenceWordsDecode := by
  unfold Obligations.ReferenceWordsDecode
  decide

end Sys2Proof.Machine
end

section
/-! SUPPORT. The step of a running instance, paid and unpaid, and what its control events leave alone (40_control.md
sections 1 and 2). -/

namespace Sys2Proof.Machine

variable {s t : State}

/-! ## Frames and bytes -/

/-- Registers are untouched where only pc, gas, status and the host's progress change. -/
theorem keepsRegisters_control (s : State) (pc : BitVec 32) (gas : BitVec 64) (status : Status) (phase : HostPhase) :
    KeepsRegisters s { s with pc := pc, gas := gas, status := status, hostPhase := phase } :=
  ⟨rfl, fun _ => rfl⟩

/-- Parameters, program, memory and the host's moves are untouched by the same changes. -/
theorem keepsMachine_control (s : State) (pc : BitVec 32) (gas : BitVec 64) (status : Status) (phase : HostPhase) :
    KeepsMachine s { s with pc := pc, gas := gas, status := status, hostPhase := phase } :=
  ⟨rfl, rfl, fun _ => rfl, rfl, rfl⟩

/-- Under every map an instruction is its mnemonic's byte and its operand bytes; only the reference byte is looked up. -/
theorem encodedAs_of_reference {i : Instr} {b : Byte} (h : referenceMap.byteOf i.op = some b) :
    EncodedAs i i.op b i.operandBytes :=
  ⟨h, fun m c hc => by rw [encodeWith, hc, Option.map_some]⟩

/-! ## One step of a running instance -/

theorem step_of_paid (hs : s.status = .running) (h : s.cost ≤ s.gas.toNat) :
    step s = exec s.decoded.instr { s with gas := s.gas - BitVec.ofNat 64 s.cost } :=
  (step_of_running hs).trans (cycle_of_le h)

theorem step_of_unpaid (hs : s.status = .running) (h : s.gas.toNat < s.cost) :
    step s = .next { s with gas := 0, status := .outOfGas } :=
  (step_of_running hs).trans (cycle_of_lt h)

/-- The step that fetches TRAP and pays for it (R127). -/
theorem step_of_paid_trap (hs : s.status = .running) (hop : s.decoded.op = .trap) (h : s.cost ≤ s.gas.toNat) :
    step s = .next { s with gas := s.gas - BitVec.ofNat 64 s.cost, status := .panicked } := by
  obtain ⟨htrap, _⟩ := instr_control s.decoded
  rw [step_of_paid hs h, htrap.mpr hop]
  rfl

/-- Both invalid fetches read TRAP: a pc that is no instruction start and a byte the map does not name (R80, R81, R128). -/
theorem State.decoded_op_of_invalid_fetch (h : s.program.isStart s.pc.toNat = false ∨
    ∀ e ∈ s.params.opcodeMap, e.1 ≠ s.program.codeByte s.pc.toNat) : s.decoded.op = .trap := by
  cases hstart : s.program.isStart s.pc.toNat with
  | false => exact fetch_of_not_start hstart
  | true => exact (fetch_of_start hstart).trans (OpcodeMap.opOf_of_unmapped (h.resolve_left (by simp [hstart])))

/-- No instruction stops or is refused: `exec` always answers a next state. -/
theorem exec_answers (i : Instr) (s : State) : ∃ t, exec i s = .next t := by
  rcases exec_cases i s with ⟨rD, z, he⟩ | ⟨_, he⟩ | ⟨imm, _, he⟩
  · exact ⟨(s.writeReg rD z).advance, he⟩
  · exact ⟨_, he⟩
  · exact ⟨_, he⟩

/-- A running instance always has a next state. -/
theorem step_answers_of_running (hs : s.status = .running) : ∃ t, step s = .next t := by
  rcases Nat.lt_or_ge s.gas.toNat s.cost with hlt | hle
  · exact ⟨_, step_of_unpaid hs hlt⟩
  · rw [step_of_paid hs hle]
    exact exec_answers _ _

/-- Where its instruction costs at least 1, a step stops the instance or leaves it less gas. -/
theorem step_stops_or_spends (hs : s.status = .running) (hcost : 1 ≤ s.cost) (h : step s = .next t) :
    t.status ≠ .running ∨ t.gas.toNat < s.gas.toNat := by
  rcases Nat.lt_or_ge s.gas.toNat s.cost with hlt | hle
  · cases (step_of_unpaid hs hlt).symm.trans h
    exact .inl nofun
  · refine .inr ?_
    rw [step_gas_of_running hs h, gasSub_of_le hle, toNat_gas_sub hle]
    omega

end Sys2Proof.Machine
end

section
/-! SUPPORT. The bounded run of an instance (40_control.md R121): it stands still once the status is not Running, and gas
bounds how long that takes. -/

namespace Sys2Proof.Machine

variable {s t : State}

theorem run_of_not_running (h : s.status ≠ .running) (n : Nat) : run n s = s := by
  cases n with
  | zero => rfl
  | succ n => exact if_neg h

theorem run_succ_of_running (hs : s.status = .running) (h : step s = .next t) (n : Nat) : run (n + 1) s = run n t := by
  rw [run, if_pos hs, h]

/-- More steps than a run needs to stop do not change where it stops. -/
theorem run_eq_of_le {n m : Nat} (h : (run n s).status ≠ .running) (hle : n ≤ m) : run m s = run n s := by
  induction n generalizing s m with
  | zero => exact run_of_not_running h m
  | succ n ih =>
    by_cases hs : s.status = .running
    · obtain ⟨t, ht⟩ := step_answers_of_running hs
      obtain ⟨m, rfl⟩ := Nat.exists_eq_add_of_le' (Nat.one_le_of_lt hle)
      rw [run_succ_of_running hs ht] at h ⊢
      rw [run_succ_of_running hs ht]
      exact ih h (Nat.le_of_succ_le_succ hle)
    · rw [run_of_not_running hs, run_of_not_running hs]

/-- With every cost at least 1, a run of more steps than there is gas stops. -/
theorem run_not_running_of_gas_lt {n : Nat} (hcost : ∀ op rf, 1 ≤ gasCost s.params.gasCost op rf)
    (h : s.gas.toNat < n) : (run n s).status ≠ .running := by
  induction n generalizing s with
  | zero => exact absurd h (Nat.not_lt_zero _)
  | succ n ih =>
    by_cases hs : s.status = .running
    · obtain ⟨t, ht⟩ := step_answers_of_running hs
      obtain ⟨_, hparams⟩ := step_keeps_program_params ht
      rw [run_succ_of_running hs ht]
      rcases step_stops_or_spends hs (hcost _ _) ht with hstop | hspend
      · rwa [run_of_not_running hstop]
      · exact ih (by rwa [hparams]) (by omega)
    · rwa [run_of_not_running hs]

end Sys2Proof.Machine
end

section
/-! The obligations of 40_control.md, settled. -/

namespace Sys2Proof.Machine

/-- Settles O46: an invalid fetch reads TRAP, so the step is the paid step of TRAP. -/
theorem invalidFetchPanicsInPlace : Obligations.InvalidFetchPanicsInPlace := by
  intro s hs hfetch hle
  have hop := State.decoded_op_of_invalid_fetch hfetch
  have hcost : s.cost = gasCost s.params.gasCost .trap s.regs := by rw [State.cost, hop]
  rw [← hcost] at hle ⊢
  exact ⟨_, step_of_paid_trap hs hop hle, rfl, rfl, toNat_gas_sub hle, keepsRegisters_control s ..,
    keepsMachine_control s ..⟩

/-- Settles O55: each step stops the instance or spends gas, and a stopped run stands still. -/
theorem runEndsWithinItsGas : Obligations.RunEndsWithinItsGas := by
  intro s hcost
  have hstop := run_not_running_of_gas_lt hcost (Nat.lt_succ_self _)
  exact ⟨hstop, fun _ => run_eq_of_le hstop⟩

/-- Settles O1: the paid and the unpaid step of TRAP, neither of which moves the pc. -/
theorem trapPanicsInPlace : Obligations.TrapPanicsInPlace := by
  refine ⟨fun s => ⟨_, rfl, rfl, rfl, rfl, rfl, keepsRegisters_control s .., keepsMachine_control s ..⟩,
    fun s hs hop => ?_, encodedAs_of_reference rfl⟩
  rcases Nat.lt_or_ge s.gas.toNat s.cost with hlt | hle
  · exact ⟨_, step_of_unpaid hs hlt, rfl, keepsRegisters_control s .., keepsMachine_control s ..,
      fun hle => absurd hlt hle.not_gt, fun _ => ⟨rfl, rfl⟩⟩
  · exact ⟨_, step_of_paid_trap hs hop hle, rfl, keepsRegisters_control s .., keepsMachine_control s ..,
      fun _ => ⟨rfl, toNat_gas_sub hle⟩, fun hlt => absurd hlt hle.not_gt⟩

/-- Settles O2: `exec` advances and suspends; the unpaid step and the unknown index are those of every instruction and of
every host call. -/
theorem ecalliAdvancesAndSuspends : Obligations.EcalliAdvancesAndSuspends :=
  ⟨fun s _ => ⟨_, rfl, rfl, rfl, rfl, rfl, keepsRegisters_control s .., keepsMachine_control s ..⟩,
    fun s hs _ hlt => ⟨_, step_of_unpaid hs hlt, rfl, rfl, rfl, keepsRegisters_control s ..⟩,
    fun _ _ hs hunknown => (step_of_awaiting hs).trans (hostTurn_unknown hunknown),
    rfl, rfl, fun _ => encodedAs_of_reference rfl⟩

/-- Settles O44: the two cases of the charge. -/
theorem stepRunsTheDecodedInstruction : Obligations.StepRunsTheDecodedInstruction := by
  rintro s _ _ hs rfl rfl
  exact ⟨step_of_paid hs, step_of_unpaid hs⟩

/-- Settles O45: the unpaid case of the charge, with its frame. -/
theorem unpaidInstructionHasNoEffect : Obligations.UnpaidInstructionHasNoEffect :=
  fun s hs hlt => ⟨_, step_of_unpaid hs hlt, rfl, rfl, rfl, rfl, keepsRegisters_control s .., keepsMachine_control s ..⟩

end Sys2Proof.Machine
end

section
/-! SUPPORT. Results of the arithmetic instructions as numbers (41_arithmetic.md): which integers a `W`-bit register can
hold, signed and unsigned, and what a retired result reads back as. -/

namespace Sys2Proof

/-- The integers that an `N`-bit pattern can stand for when read signed (00_scope.md R7). -/
def SignedRange (N : Nat) (z : Int) : Prop := -((2 ^ (N - 1) : Nat) : Int) ≤ z ∧ z < ((2 ^ (N - 1) : Nat) : Int)

/-- A pattern and the one a whole `2^N` above it are the same `N` bits. -/
theorem wrap_add_two_pow (N : Nat) (z : Int) : wrap N (z + ((2 ^ N : Nat) : Int)) = wrap N z := by
  unfold wrap
  rw [Int.add_emod_right]

/-- What lies between 0 and a signed value is a signed value. -/
theorem SignedRange.of_mem_uIcc {N : Nat} {a z : Int} (ha : SignedRange N a) (hz : z ∈ Set.uIcc 0 a) :
    SignedRange N z := by
  obtain ⟨hlo, hhi⟩ := ha
  rw [Set.mem_uIcc] at hz
  constructor <;> omega

/-- `-2^(N-1)` itself can be read signed. -/
theorem signedRange_min (N : Nat) : SignedRange N (-((2 ^ (N - 1) : Nat) : Int)) := by
  have hpos := Nat.two_pow_pos (N - 1)
  constructor <;> omega

theorem signedRange_neg_one (N : Nat) : SignedRange N (-1) := by
  have hpos := Nat.two_pow_pos (N - 1)
  constructor <;> omega

/-- The high half of a product fits: the divisor `2^N` exceeds one factor, and the other is in signed range. -/
theorem signedRange_floorDiv_mul {N : Nat} {a b : Int} (ha : SignedRange N a) (hb : |b| < ((2 ^ N : Nat) : Int)) :
    SignedRange N (Machine.floorDiv (a * b) ((2 ^ N : Nat) : Int)) := by
  obtain ⟨hlo, hhi⟩ := ha
  have hH : (0 : Int) < ((2 ^ (N - 1) : Nat) : Int) := mod_cast Nat.two_pow_pos (N - 1)
  have hM : (0 : Int) < ((2 ^ N : Nat) : Int) := mod_cast Nat.two_pow_pos N
  have hprod : |a * b| < ((2 ^ (N - 1) : Nat) : Int) * ((2 ^ N : Nat) : Int) := by
    rw [abs_mul]
    exact mul_lt_mul' (abs_le.mpr ⟨hlo, hhi.le⟩) hb (abs_nonneg b) hH
  obtain ⟨hprodLo, hprodHi⟩ := abs_lt.mp hprod
  rw [Machine.floorDiv, Int.fdiv_eq_ediv_of_nonneg _ hM.le]
  refine ⟨(Int.le_ediv_iff_mul_le hM).mpr ?_, (Int.ediv_lt_iff_lt_mul hM).mpr hprodHi⟩
  rw [Int.neg_mul]
  exact hprodLo.le

/-- The only truncated quotient out of signed range is that of `MIN` by `-1`. -/
theorem signedRange_truncDiv {N : Nat} {a b : Int} (ha : SignedRange N a) (hb : b ≠ 0)
    (hover : ¬(a = -((2 ^ (N - 1) : Nat) : Int) ∧ b = -1)) : SignedRange N (Machine.truncDiv a b) := by
  rw [Machine.truncDiv]
  rcases eq_or_ne b 1 with rfl | hone
  · rwa [Int.tdiv_one]
  obtain ⟨hlo, hhi⟩ := ha
  rcases eq_or_ne b (-1) with rfl | hneg
  · rw [Int.tdiv_neg, Int.tdiv_one]
    constructor <;> omega
  · have hpos := Nat.two_pow_pos (N - 1)
    have habs : (a.tdiv b).natAbs = a.natAbs / b.natAbs := Int.natAbs_tdiv a b
    have hhalf : a.natAbs / b.natAbs ≤ a.natAbs / 2 := Nat.div_le_div_left (by omega) (by decide)
    constructor <;> omega

/-- The remainder lies between 0 and the dividend. -/
theorem tmod_mem_uIcc (a b : Int) : a.tmod b ∈ Set.uIcc 0 a := by
  have habs : (a.tmod b).natAbs ≤ a.natAbs := Int.natAbs_tmod a b ▸ Nat.mod_le _ _
  rw [Set.mem_uIcc]
  rcases le_total 0 a with ha | ha
  · have := Int.tmod_nonneg b ha
    omega
  · have := Int.tmod_nonneg b (Int.neg_nonneg.mpr ha)
    rw [Int.neg_tmod] at this
    omega

theorem abs_tmod_lt {b : Int} (a : Int) (hb : b ≠ 0) : |a.tmod b| < |b| := by
  rw [← Int.natCast_natAbs, ← Int.natCast_natAbs, Int.natAbs_tmod]
  exact_mod_cast Nat.mod_lt _ (Int.natAbs_pos.mpr hb)

namespace Machine

theorem floorDiv_natCast (m n : Nat) : floorDiv m n = ((m / n : Nat) : Int) := (Int.ofNat_fdiv m n).symm

theorem State.sx_signedRange (s : State) (r : Reg) : SignedRange s.width (s.sx r) := s.regs.sx_bounds r

theorem State.wrap_ux (s : State) (r : Reg) : wrap s.width (s.ux r) = s.ux r := wrap_of_lt (s.ux_lt r)

/-- Both views of a register are the same pattern (10_state.md R22). -/
theorem State.wrap_ux_eq_wrap_sx (s : State) (r : Reg) : wrap s.width (s.ux r) = wrap s.width (s.sx r) :=
  (s.wrap_ux r).trans (s.regs.wrap_sx r).symm

/-- All ones stand for `-1` (00_scope.md R7). -/
theorem wrap_maxPattern (N : Nat) : wrap N (maxPattern N : Int) = wrap N (-1) := by
  have hpos := Nat.two_pow_pos N
  have hmax : (maxPattern N : Int) = -1 + ((2 ^ N : Nat) : Int) := by
    rw [maxPattern]
    omega
  rw [hmax, wrap_add_two_pow]

/-- The top bit alone stands for `-2^(N-1)` (00_scope.md R7). -/
theorem wrap_minPattern {N : Nat} (hN : 0 < N) :
    wrap N (minPattern N : Int) = wrap N (-((2 ^ (N - 1) : Nat) : Int)) := by
  have hdouble := Nat.two_pow_pred_add_two_pow_pred hN
  have hmin : (minPattern N : Int) = -((2 ^ (N - 1) : Nat) : Int) + ((2 ^ N : Nat) : Int) := by
    rw [minPattern]
    omega
  rw [hmin, wrap_add_two_pow]

/-! ## What a retired result reads back as -/

variable (s : State) (rD : Reg)

/-- Read unsigned, a retired integer is its remainder modulo `2^W` (41_arithmetic.md R141, R142). -/
theorem State.retire_natCast_ux (z : Int) :
    ∃ t, s.retire rD z = .next t ∧ WritesOnly rD s t ∧ (t.ux rD : Int) = z % ((2 ^ s.width : Nat) : Int) := by
  obtain ⟨t, ht, hux, honly⟩ := s.retire_spec rD z
  exact ⟨t, ht, honly, by rw [hux, natCast_wrap]⟩

theorem State.retire_ux {z : Int} {v : Nat} (h : wrap s.width z = v) :
    ∃ t, s.retire rD z = .next t ∧ WritesOnly rD s t ∧ t.ux rD = v := by
  obtain ⟨t, ht, hux, honly⟩ := s.retire_spec rD z
  exact ⟨t, ht, honly, hux.trans h⟩

/-- Read signed, a retired integer is the one in signed range that has its pattern. -/
theorem State.retire_sx_of_wrap_eq {z v : Int} (hwrap : wrap s.width z = wrap s.width v) (hv : SignedRange s.width v) :
    ∃ t, s.retire rD z = .next t ∧ WritesOnly rD s t ∧ t.sx rD = v := by
  obtain ⟨t, ht, hux, honly⟩ := s.retire_spec rD z
  refine ⟨t, ht, honly, ?_⟩
  calc t.sx rD = sView t.width (t.ux rD) := rfl
    _ = sView s.width (wrap s.width v) := by rw [honly.width, hux, hwrap]
    _ = v := sView_wrap s.regs.width_pos hv.1 hv.2

theorem State.retire_sx {z : Int} (hz : SignedRange s.width z) :
    ∃ t, s.retire rD z = .next t ∧ WritesOnly rD s t ∧ t.sx rD = z :=
  s.retire_sx_of_wrap_eq rD rfl hz

/-- A result between 0 and a register's signed value reads back signed, with that value's sign or 0 (R153). -/
theorem State.retire_sx_of_mem_uIcc {z v : Int} {r : Reg} (hwrap : wrap s.width z = wrap s.width v)
    (hv : v ∈ Set.uIcc 0 (s.sx r)) :
    ∃ t, s.retire rD z = .next t ∧ WritesOnly rD s t ∧ t.sx rD = v ∧
      (0 ≤ s.sx r → 0 ≤ t.sx rD) ∧ (s.sx r ≤ 0 → t.sx rD ≤ 0) := by
  obtain ⟨t, ht, honly, hsx⟩ := s.retire_sx_of_wrap_eq rD hwrap ((s.sx_signedRange r).of_mem_uIcc hv)
  rw [Set.mem_uIcc] at hv
  exact ⟨t, ht, honly, hsx, by omega, by omega⟩

/-! ## The signed division instructions, with `MIN` as a number -/

theorem exec_divS_eq (rA rB : Reg) : exec (.divS rD rA rB) s =
    if s.sx rB = 0 then s.retire rD (maxPattern s.width)
    else if s.sx rA = -((2 ^ (s.width - 1) : Nat) : Int) ∧ s.sx rB = -1 then s.retire rD (minPattern s.width)
    else s.retire rD (truncDiv (s.sx rA) (s.sx rB)) := rfl

theorem exec_remS_eq (rA rB : Reg) : exec (.remS rD rA rB) s =
    if s.sx rB = 0 then s.retire rD (s.ux rA)
    else if s.sx rA = -((2 ^ (s.width - 1) : Nat) : Int) ∧ s.sx rB = -1 then s.retire rD 0
    else s.retire rD (s.sx rA - s.sx rB * truncDiv (s.sx rA) (s.sx rB)) := rfl

end Machine

end Sys2Proof
end

section
/-! The obligations of 41_arithmetic.md, settled. -/

namespace Sys2Proof.Machine

/-- Settles O3: the sum of the unsigned views, wrapped by the write. -/
theorem addWrapsAtWidth : Obligations.AddWrapsAtWidth :=
  ⟨fun s rD _ _ => s.retire_ux rD (by rw [← Nat.cast_add, wrap_natCast]), fun _ _ _ => encodedAs_of_reference rfl⟩

/-- Settles O4: the difference may be negative, and its remainder is not. -/
theorem subWrapsAtWidth : Obligations.SubWrapsAtWidth :=
  ⟨fun s rD _ _ => s.retire_natCast_ux rD _, fun _ _ _ => encodedAs_of_reference rfl⟩

/-- Settles O6: the exact product, wrapped by the write. -/
theorem mulKeepsTheLowHalf : Obligations.MulKeepsTheLowHalf :=
  ⟨fun s rD _ _ => s.retire_ux rD (by rw [← Nat.cast_mul, wrap_natCast]), fun _ _ _ => encodedAs_of_reference rfl⟩

/-- Settles O5: as SUB, with the immediate as the left operand. -/
theorem negAddImmSubtractsTheRegister : Obligations.NegAddImmSubtractsTheRegister :=
  ⟨fun s rD _ _ => s.retire_natCast_ux rD _, fun _ _ _ => encodedAs_of_reference rfl⟩

/-- Settles O7: both factors are below `2^W`, so the quotient is too and the write does not wrap it. -/
theorem mulUpperUUKeepsTheHighHalf : Obligations.MulUpperUUKeepsTheHighHalf := by
  refine ⟨fun s rD rA rB => s.retire_ux rD ?_, fun _ _ _ => encodedAs_of_reference rfl⟩
  have hlt : s.ux rA * s.ux rB / 2 ^ s.width < 2 ^ s.width :=
    Nat.div_lt_of_lt_mul (Nat.mul_lt_mul'' (s.ux_lt rA) (s.ux_lt rB))
  rw [← Nat.cast_mul, floorDiv_natCast, wrap_of_lt hlt]

/-- Settles O8: the quotient is in signed range, since `|sx[rB]| ≤ 2^(W-1) < 2^W`. -/
theorem mulUpperSSKeepsTheSignedHighHalf : Obligations.MulUpperSSKeepsTheSignedHighHalf := by
  refine ⟨fun s rD rA rB => s.retire_sx rD (signedRange_floorDiv_mul (s.sx_signedRange rA) ?_),
    fun _ _ _ => encodedAs_of_reference rfl⟩
  obtain ⟨hlo, hhi⟩ := s.sx_signedRange rB
  have hhalf : 2 ^ (s.width - 1) < 2 ^ s.width := Nat.two_pow_pred_lt_two_pow s.regs.width_pos
  rw [abs_lt]
  constructor <;> omega

/-- Settles O9: the quotient is in signed range, since `ux[rB] < 2^W`. -/
theorem mulUpperSUReadsTheLeftOperandSigned : Obligations.MulUpperSUReadsTheLeftOperandSigned := by
  refine ⟨fun s rD rA rB => s.retire_sx rD (signedRange_floorDiv_mul (s.sx_signedRange rA) ?_),
    fun _ _ _ => encodedAs_of_reference rfl⟩
  rw [Nat.abs_cast]
  exact_mod_cast s.ux_lt rB

/-- Settles O10: neither result wraps. -/
theorem divUByZeroIsAllOnes : Obligations.DivUByZeroIsAllOnes := by
  refine ⟨fun s rD rA rB => ?_, fun _ _ _ => encodedAs_of_reference rfl⟩
  simp only [exec, execDivU]
  split_ifs with hzero
  · exact s.retire_ux rD (wrap_of_lt (Nat.sub_lt (Nat.two_pow_pos s.width) Nat.one_pos))
  · have hlt : s.ux rA / s.ux rB < 2 ^ s.width := (Nat.div_le_self _ _).trans_lt (s.ux_lt rA)
    exact s.retire_ux rD (by rw [floorDiv_natCast, wrap_of_lt hlt])

/-- Settles O11: the two corners write the patterns of `-1` and `MIN`; any other quotient is in signed range. -/
theorem divSTruncatesTowardZero : Obligations.DivSTruncatesTowardZero := by
  refine ⟨fun s rD rA rB => ?_, fun _ _ _ => encodedAs_of_reference rfl⟩
  rw [exec_divS_eq]
  split_ifs with hzero hover
  · exact s.retire_sx_of_wrap_eq rD (wrap_maxPattern s.width) (signedRange_neg_one s.width)
  · exact s.retire_sx_of_wrap_eq rD (wrap_minPattern s.regs.width_pos) (signedRange_min s.width)
  · exact s.retire_sx rD (signedRange_truncDiv (s.sx_signedRange rA) hzero hover)

/-- Settles O12: neither result exceeds the dividend, so neither wraps. -/
theorem remUByZeroIsTheDividend : Obligations.RemUByZeroIsTheDividend := by
  refine ⟨fun s rD rA rB => ?_, fun _ _ _ => encodedAs_of_reference rfl⟩
  simp only [exec, execRemU]
  split_ifs with hzero
  · exact s.retire_ux rD (s.wrap_ux rA)
  · exact s.retire_ux rD (wrap_of_lt ((Nat.mod_le _ _).trans_lt (s.ux_lt rA)))

/-- Settles O13: each of the three results lies between 0 and the dividend. -/
theorem remSTakesTheDividendsSign : Obligations.RemSTakesTheDividendsSign := by
  refine ⟨fun s rD rA rB => ?_, fun _ _ _ => encodedAs_of_reference rfl⟩
  rw [exec_remS_eq]
  split_ifs with hzero hover
  · exact s.retire_sx_of_mem_uIcc rD (s.wrap_ux_eq_wrap_sx rA) Set.right_mem_uIcc
  · exact s.retire_sx_of_mem_uIcc rD rfl Set.left_mem_uIcc
  · exact s.retire_sx_of_mem_uIcc rD rfl (Int.tmod_def .. ▸ tmod_mem_uIcc (s.sx rA) (s.sx rB))

/-- Settles O26, from what the four instructions were shown to write. -/
theorem divisionIdentityHolds : Obligations.DivisionIdentityHolds := by
  intro s tq tr uq ur rD rA rB htq htr huq hur
  obtain ⟨_, hq, _, hqval⟩ := divSTruncatesTowardZero.1 s rD rA rB
  obtain ⟨_, hr, _, hrval, _⟩ := remSTakesTheDividendsSign.1 s rD rA rB
  obtain ⟨_, hqU, _, hqUval⟩ := divUByZeroIsAllOnes.1 s rD rA rB
  obtain ⟨_, hrU, _, hrUval⟩ := remUByZeroIsTheDividend.1 s rD rA rB
  cases hq.symm.trans htq
  cases hr.symm.trans htr
  cases hqU.symm.trans huq
  cases hrU.symm.trans hur
  refine ⟨fun hzero hover => ?_, fun hmin hneg => ?_, fun hzero => ?_⟩
  · rw [if_neg hzero, if_neg hover] at hqval hrval
    rw [hqval, hrval, ← Int.tmod_def]
    exact ⟨(Int.mul_tdiv_add_tmod _ _).symm, abs_tmod_lt _ hzero⟩
  · have hzero : s.sx rB ≠ 0 := by omega
    rw [if_neg hzero, if_pos ⟨hmin, hneg⟩] at hqval hrval
    have hdouble : 2 ^ (s.width - 1) + 2 ^ (s.width - 1) = 2 ^ s.width :=
      Nat.two_pow_pred_add_two_pow_pred s.regs.width_pos
    have hdiff : s.sx rA - (s.sx rB * tq.sx rD + tr.sx rD) = -((2 ^ s.width : Nat) : Int) := by
      rw [hqval, hrval, hmin, hneg]
      omega
    exact hdiff ▸ (dvd_refl _).neg_right
  · rw [if_neg hzero] at hqUval hrUval
    rw [hqUval, hrUval]
    exact ⟨(Nat.div_add_mod _ _).symm, Nat.mod_lt _ (Nat.pos_of_ne_zero hzero)⟩

end Sys2Proof.Machine
end

section
/-! SUPPORT. Results of the bitwise and shift instructions (42_bitwise_shift.md): the immediate at width `W`, and what a
retired shift or bitwise combination reads back as. -/

namespace Sys2Proof.Machine

/-! ## The immediate at width `W` (30_encoding.md R87, 42_bitwise_shift.md R172) -/

theorem signedRange_imm {W : Nat} (hW : 32 ≤ W) (imm : Imm) : SignedRange W imm.toInt := by
  have hpow : 2 ^ (32 - 1) ≤ 2 ^ (W - 1) := Nat.pow_le_pow_right (by decide) (by omega)
  have hlo := BitVec.le_toInt imm
  have hhi := BitVec.toInt_lt (x := imm)
  constructor <;> omega

/-- Sign extension keeps the signed reading. -/
theorem sView_immW {W : Nat} (hW : 32 ≤ W) (imm : Imm) : sView W (immW W imm) = imm.toInt := by
  obtain ⟨hlo, hhi⟩ := signedRange_imm hW imm
  exact sView_wrap (by omega) hlo hhi

/-- Sign extension changes an immediate by multiples of `2^32` and `2^W`, and so keeps its remainder by a divisor of
`2^32`. -/
theorem immW_mod {W d : Nat} (hW : 32 ≤ W) (hd : d ∣ 2 ^ 32) (imm : Imm) : immW W imm % d = imm.toNat % d := by
  have hdW : (d : Int) ∣ ((2 ^ W : Nat) : Int) := mod_cast hd.trans (Nat.pow_dvd_pow 2 hW)
  have hd32 : (d : Int) ∣ ((2 ^ 32 : Nat) : Int) := mod_cast hd
  zify
  calc (immW W imm : Int) % d = imm.toInt % ((2 ^ W : Nat) : Int) % d := by rw [immW, natCast_wrap]
    _ = imm.toInt % ((2 ^ 32 : Nat) : Int) % d := by rw [Int.emod_emod_of_dvd _ hdW, Int.emod_emod_of_dvd _ hd32]
    _ = (imm.toNat : Int) % d := by rw [BitVec.toInt_eq_toNat_bmod, Int.bmod_emod, Int.emod_emod_of_dvd _ hd32]

theorem State.le_width (s : State) : 32 ≤ s.width := by
  rcases s.width_cases with h | h <;> omega

theorem State.width_dvd_two_pow (s : State) : s.width ∣ 2 ^ 32 := by
  rcases s.width_cases with h | h <;> rw [h] <;> decide

theorem State.immW_lt (s : State) (imm : Imm) : immW s.width imm < 2 ^ s.width := wrap_lt _ _

/-! ## What a retired result reads back as -/

/-- A floor quotient by a positive divisor stays in signed range. -/
theorem signedRange_floorDiv {N d : Nat} {a : Int} (ha : SignedRange N a) (hd : 0 < d) :
    SignedRange N (floorDiv a d) := by
  obtain ⟨hlo, hhi⟩ := ha
  have hdiv : (0 : Int) < d := mod_cast hd
  have hscale : ((2 ^ (N - 1) : Nat) : Int) ≤ ((2 ^ (N - 1) : Nat) : Int) * d := mod_cast Nat.le_mul_of_pos_right _ hd
  rw [floorDiv, Int.fdiv_eq_ediv_of_nonneg _ hdiv.le]
  refine ⟨(Int.le_ediv_iff_mul_le hdiv).mpr ?_, (Int.ediv_lt_iff_lt_mul hdiv).mpr (hhi.trans_le hscale)⟩
  rw [Int.neg_mul]
  exact (neg_le_neg hscale).trans hlo

variable (s : State) (rD : Reg)

/-- A retired `W`-bit pattern reads back bit by bit. -/
theorem State.retire_testBit {v : Nat} {f : Nat → Bool} (hv : v < 2 ^ s.width) (hf : ∀ n, v.testBit n = f n) :
    ∃ t, s.retire rD v = .next t ∧ WritesOnly rD s t ∧ ∀ n, (t.ux rD).testBit n = f n := by
  obtain ⟨t, ht, honly, hux⟩ := s.retire_ux rD (wrap_of_lt hv)
  exact ⟨t, ht, honly, hux ▸ hf⟩

theorem State.retire_shlW (v n : Nat) :
    ∃ t, s.retire rD (shlW s.width v n) = .next t ∧ WritesOnly rD s t ∧
      t.ux rD = v * 2 ^ (n % s.width) % 2 ^ s.width :=
  s.retire_ux rD (wrap_natCast _ _)

/-- A right shift stays below `2^W`, so the write does not wrap it. -/
theorem State.retire_shrW {v : Nat} (hv : v < 2 ^ s.width) (n : Nat) :
    ∃ t, s.retire rD (shrW s.width v n) = .next t ∧ WritesOnly rD s t ∧ t.ux rD = v / 2 ^ (n % s.width) :=
  s.retire_ux rD (wrap_of_lt ((Nat.div_le_self _ _).trans_lt hv))

/-- An arithmetic right shift stays in signed range, so its result reads back signed. -/
theorem State.retire_sarW {v : Nat} (hv : v < 2 ^ s.width) (n : Nat) :
    ∃ t, s.retire rD (sarW s.width v n) = .next t ∧ WritesOnly rD s t ∧
      t.sx rD = Int.fdiv (sView s.width v) ((2 ^ (n % s.width) : Nat) : Int) :=
  s.retire_sx rD (signedRange_floorDiv (sView_bounds s.regs.width_pos hv) (Nat.two_pow_pos _))

end Sys2Proof.Machine
end

section
/-! The obligations of 42_bitwise_shift.md, settled. -/

namespace Sys2Proof.Machine

/-- Settles O14: neither operand has a bit above `W - 1`, so the write does not wrap the combination. -/
theorem andIsBitwise : Obligations.AndIsBitwise :=
  ⟨fun s rD rA rB => s.retire_testBit rD (Nat.and_lt_two_pow _ (s.ux_lt rB)) (Nat.testBit_and (s.ux rA) (s.ux rB)),
    fun _ _ _ => encodedAs_of_reference rfl⟩

/-- Settles O15, as for AND. -/
theorem orIsBitwise : Obligations.OrIsBitwise :=
  ⟨fun s rD rA rB =>
      s.retire_testBit rD (Nat.or_lt_two_pow (s.ux_lt rA) (s.ux_lt rB)) (Nat.testBit_or (s.ux rA) (s.ux rB)),
    fun _ _ _ => encodedAs_of_reference rfl⟩

/-- Settles O16, as for AND. -/
theorem xorIsBitwise : Obligations.XorIsBitwise :=
  ⟨fun s rD rA rB =>
      s.retire_testBit rD (Nat.xor_lt_two_pow (s.ux_lt rA) (s.ux_lt rB)) (Nat.testBit_xor (s.ux rA) (s.ux rB)),
    fun _ _ _ => encodedAs_of_reference rfl⟩

/-- Settles O18: the register's unsigned view, shifted right. -/
theorem shrTakesTheAmountModuloWidth : Obligations.ShrTakesTheAmountModuloWidth :=
  ⟨fun s rD rA rB => s.retire_shrW rD (s.ux_lt rA) (s.ux rB), fun _ _ _ => encodedAs_of_reference rfl⟩

/-- Settles O19: the register's signed view, shifted right. -/
theorem sarTakesTheAmountModuloWidth : Obligations.SarTakesTheAmountModuloWidth :=
  ⟨fun s rD rA rB => s.retire_sarW rD (s.ux_lt rA) (s.ux rB), fun _ _ _ => encodedAs_of_reference rfl⟩

/-- Settles O21, as for SHR. -/
theorem shrImmShiftsTheRegister : Obligations.ShrImmShiftsTheRegister :=
  ⟨fun s rD rS imm => s.retire_shrW rD (s.ux_lt rS) (immW s.width imm), fun _ _ _ => encodedAs_of_reference rfl⟩

/-- Settles O22, as for SAR. -/
theorem sarImmShiftsTheRegister : Obligations.SarImmShiftsTheRegister :=
  ⟨fun s rD rS imm => s.retire_sarW rD (s.ux_lt rS) (immW s.width imm), fun _ _ _ => encodedAs_of_reference rfl⟩

/-- Settles O24: the shifted pattern is the immediate's, at width `W`. -/
theorem shrImmAltShiftsTheImmediate : Obligations.ShrImmAltShiftsTheImmediate :=
  ⟨fun s rD rS imm => s.retire_shrW rD (s.immW_lt imm) (s.ux rS), fun _ _ _ => encodedAs_of_reference rfl⟩

/-- Settles O25: at width `W` the immediate's pattern still reads as `imm.s`. -/
theorem sarImmAltShiftsTheImmediate : Obligations.SarImmAltShiftsTheImmediate := by
  refine ⟨fun s rD rS imm => ?_, fun _ _ _ => encodedAs_of_reference rfl⟩
  rw [← sView_immW s.le_width imm]
  exact s.retire_sarW rD (s.immW_lt imm) (s.ux rS)

/-- Settles O27: `W` is 32 or 64 and divides `2^32`. -/
theorem immediateAmountIsTheUnsignedViewModuloWidth : Obligations.ImmediateAmountIsTheUnsignedViewModuloWidth :=
  fun s imm => ⟨immW_mod s.le_width s.width_dvd_two_pow imm, sView_immW s.le_width imm⟩

/-- Settles O17: the register's unsigned view, shifted left and wrapped by the write. -/
theorem shlTakesTheAmountModuloWidth : Obligations.ShlTakesTheAmountModuloWidth :=
  ⟨fun s rD rA rB => s.retire_shlW rD (s.ux rA) (s.ux rB), fun _ _ _ => encodedAs_of_reference rfl⟩

/-- Settles O20, as for SHL. -/
theorem shlImmShiftsTheRegister : Obligations.ShlImmShiftsTheRegister :=
  ⟨fun s rD rS imm => s.retire_shlW rD (s.ux rS) (immW s.width imm), fun _ _ _ => encodedAs_of_reference rfl⟩

/-- Settles O23: the shifted pattern is the immediate's, at width `W`. -/
theorem shlImmAltShiftsTheImmediate : Obligations.ShlImmAltShiftsTheImmediate :=
  ⟨fun s rD rS imm => s.retire_shlW rD (immW s.width imm) (s.ux rS), fun _ _ _ => encodedAs_of_reference rfl⟩

end Sys2Proof.Machine
end

section
/-! SUPPORT. Where a request to the memory collaborator faults, and what the halt result is then (20_memory.md R55,
60_exceptions.md R213). -/

namespace Sys2Proof.Machine

variable {s : State} {m : Memory} {addr len : Nat}

/-- A load answers exactly where every address it reads holds a byte. -/
theorem Memory.load_isSome_iff :
    (Memory.load m addr len).isSome = true ↔ ∀ k, k < len → ∃ b, Memory.read m (addr + k) = some b := by
  rw [Option.isSome_iff_exists]
  constructor
  · rintro ⟨bytes, h⟩ k hk
    obtain ⟨hlen, hread⟩ := Memory.load_eq_some.mp h
    exact ⟨_, (hread k hk).trans (List.getElem?_eq_getElem (hlen ▸ hk))⟩
  · intro h
    choose f hf using h
    refine ⟨List.ofFn fun k : Fin len => f k k.isLt, Memory.load_eq_some.mpr ⟨List.length_ofFn, fun k hk => ?_⟩⟩
    rw [hf k hk, List.getElem?_ofFn, dif_pos hk]

/-- A load answers nothing exactly where one of the addresses it reads holds nothing. -/
theorem Memory.load_eq_none_iff :
    Memory.load m addr len = none ↔ ∃ k, k < len ∧ Memory.read m (addr + k) = none := by
  rw [← not_iff_not, ← ne_eq, Option.ne_none_iff_isSome, Memory.load_isSome_iff]
  push Not
  simp only [Option.ne_none_iff_exists']

/-- A load faults exactly where a rule says so or an address holds nothing. -/
theorem State.load_eq_none_iff :
    s.load addr len = none ↔ faultsOn s.memoryFaults .load addr len = true ∨
      ∃ k, k < len ∧ Memory.read s.memory (addr + k) = none := by
  rw [← Memory.load_eq_none_iff, State.load]
  cases faultsOn s.memoryFaults .load addr len <;> simp

/-- A store that no rule makes fault, to addresses that all hold a byte, writes its bytes. -/
theorem State.store_of_storable {bytes : List Byte} (hrules : faultsOn s.memoryFaults .store addr bytes.length = false)
    (hheld : ∀ k, k < bytes.length → ∃ b, Memory.read s.memory (addr + k) = some b) :
    s.store addr bytes = some { s with memory := Memory.putAll s.memory addr bytes } := by
  rcases s.store_cases addr bytes with ⟨_, hfault | hload⟩ | ⟨he, _⟩
  · rw [hrules] at hfault; cases hfault
  · have hsome := Memory.load_isSome_iff.mpr hheld
    rw [hload] at hsome; cases hsome
  · exact he

/-- Any other store is a fault. -/
theorem State.store_of_faulting {bytes : List Byte} (h : faultsOn s.memoryFaults .store addr bytes.length = true ∨
    ∃ k, k < bytes.length ∧ Memory.read s.memory (addr + k) = none) : s.store addr bytes = none := by
  rw [← Memory.load_eq_none_iff] at h
  rcases s.store_cases addr bytes with ⟨he, _⟩ | ⟨_, hrules, hload⟩
  · exact he
  · rcases h with h | h
    · rw [hrules] at h; cases h
    · rw [h] at hload; cases hload

theorem haltResult_of_halted {ra rl : Reg} (hregs : s.params.haltRetRegs = (ra, rl)) (h : s.status = .halted) :
    haltResult s = some ((s.load (s.ux ra % 2 ^ 32) (s.ux rl % 2 ^ 32)).getD []) := by
  simp only [haltResult, h, hregs]

theorem haltResult_of_not_halted (h : s.status ≠ .halted) : haltResult s = none := by
  unfold haltResult
  split
  · exact absurd ‹_› h
  · rfl

end Sys2Proof.Machine
end

section
/-! SUPPORT. The host's moves in a suspended instance (60_exceptions.md R208 to R212): the step each one is, which of them
a phase of the host call admits, and the frames of the handler's moves. -/

namespace Sys2Proof.Machine

variable {s t : State} {k : BitVec 32} {d : HostDescriptor} {move : HostMove} {rest : List HostMove}

/-! ## Frames -/

theorem keepsRegisters_of_regs_eq (h : t.regs = s.regs) : KeepsRegisters s t :=
  ⟨congrArg RegFile.width h, fun r => congrArg (fun rf : RegFile => rf.ux r) h⟩

/-- Only memory from `addr` over `len` bytes changes, with one host move used up, where the new contents read the same at
every other address. -/
theorem writesMemoryOnly_memory {m : Memory} {addr len : Nat}
    (h : ∀ a, ¬(addr ≤ a ∧ a < addr + len) → Memory.read m a = Memory.read s.memory a) :
    WritesMemoryOnly rest addr len s { s with memory := m, hostMoves := rest } :=
  ⟨⟨rfl, rfl, rfl, rfl, rfl⟩, rfl, rfl, keepsRegisters_of_regs_eq rfl, rfl, fun a ha => h a (by omega)⟩

theorem Memory.read_putAll_outside (m : Memory) {addr a : Nat} {bytes : List Byte}
    (h : ¬(addr ≤ a ∧ a < addr + bytes.length)) :
    Memory.read (Memory.putAll m addr bytes) a = Memory.read m a := by
  rw [Memory.read_putAll, if_neg h]

theorem Memory.read_putAll_inside (m : Memory) (addr : Nat) {bytes : List Byte} {i : Nat} (h : i < bytes.length) :
    Memory.read (Memory.putAll m addr bytes) (addr + i) = bytes[i]? := by
  rw [Memory.read_putAll, if_pos (by omega), Nat.add_sub_cancel_left]

/-! ## The step a host move is -/

/-- A step of an instance suspended at a known index is the host's next move. -/
theorem step_of_hostMoves (hs : s.status = .awaitingHostCall k) (hd : hostDescriptor s.params k = some d)
    (hm : s.hostMoves = move :: rest) : step s = hostMove d { s with hostMoves := rest } move :=
  (step_of_awaiting hs).trans (hostTurn_cons hd hm)

/-- A suspended instance steps only by a host move. -/
theorem step_suspended (hs : s.Suspended) (h : step s = .next t) :
    ∃ d move, s.hostMoves = move :: t.hostMoves ∧
      hostMove d { s with hostMoves := t.hostMoves } move = .next t := by
  obtain ⟨k, hk⟩ := hs
  rcases step_cases h with ⟨hr, _⟩ | ⟨hr, _⟩ | ⟨_, d, move, rest, _, _, hm, hmove⟩
  · rw [hk] at hr; cases hr
  · rw [hk] at hr; cases hr
  · obtain ⟨_, _, _, hrest, _⟩ := hostMove_next hmove
    obtain rfl : t.hostMoves = rest := hrest
    exact ⟨d, move, hm, hmove⟩

/-- While the handler runs, a step does what `hostMove` does for the move at that phase. -/
theorem step_of_handling {f : State → Host.Outcome State Fault Refusal} (h : s.HandlerMoves move rest)
    (hf : ∀ (d : HostDescriptor) (u : State), u.hostPhase = .handling → hostMove d u move = f u) :
    step s = f { s with hostMoves := rest } := by
  obtain ⟨d, hstep⟩ := step_of_handlerMoves h
  obtain ⟨hphase, _⟩ := h
  exact hstep.trans (hf d _ hphase)

theorem step_store {addr : Nat} {bytes : List Byte} (h : s.HandlerMoves (.store addr bytes) rest) :
    step s = hostStore addr bytes { s with hostMoves := rest } :=
  step_of_handling h fun _ _ hu => by simp only [hostMove, hu]

theorem step_mapBytes {addr : Nat} {bytes : List Byte} (h : s.HandlerMoves (.mapBytes addr bytes) rest) :
    step s = .next { s with memory := Memory.putAll s.memory addr bytes, hostMoves := rest } :=
  step_of_handling (f := fun u => .next { u with memory := Memory.putAll u.memory addr bytes }) h
    fun _ _ hu => by simp only [hostMove, hu]

theorem step_unmapBytes {addr len : Nat} (h : s.HandlerMoves (.unmapBytes addr len) rest) :
    step s = .next { s with memory := Memory.remove s.memory addr len, hostMoves := rest } :=
  step_of_handling (f := fun u => .next { u with memory := Memory.remove u.memory addr len }) h
    fun _ _ hu => by simp only [hostMove, hu]

theorem step_setFaults {rules : List FaultRule} (h : s.HandlerMoves (.setFaults rules) rest) :
    step s = .next { s with memoryFaults := rules, hostMoves := rest } :=
  step_of_handling (f := fun u => .next { u with memoryFaults := rules }) h fun _ _ hu => by simp only [hostMove, hu]

theorem step_spendGas {amount : Nat} (h : s.HandlerMoves (.spendGas amount) rest) :
    step s = hostSpend amount { s with hostMoves := rest } :=
  step_of_handling h fun _ _ hu => by simp only [hostMove, hu]

theorem step_handlerReturns {verdict : Verdict} (h : s.HandlerMoves (.handlerReturns verdict) rest) :
    step s = .next { s with hostPhase := .returned verdict, hostMoves := rest } :=
  step_of_handling (f := fun u => .next { u with hostPhase := .returned verdict }) h
    fun _ _ hu => by simp only [hostMove, hu]

theorem hostStore_of_some {u v : State} {addr : Nat} {bytes : List Byte} (h : u.store addr bytes = some v) :
    hostStore addr bytes u = .next v := by
  rw [hostStore, h, Option.getD_some]

theorem hostStore_of_none {u : State} {addr : Nat} {bytes : List Byte} (h : u.store addr bytes = none) :
    hostStore addr bytes u = .next u := by
  rw [hostStore, h, Option.getD_none]

/-! ## Which moves a phase admits (log entry 13) -/

/-- The order of R208: the charge; the handler's moves; then the resume or the halt that its return calls for. -/
theorem hostMove_inTurn (h : hostMove d s move = .next t) :
    (s.hostPhase = .pending → move = .charge) ∧
    (s.hostPhase = .handling → move ≠ .charge ∧ move ≠ .resume ∧ move ≠ .halt) ∧
    (s.hostPhase = .returned .normal → move = .resume ∧ t.status = .running) ∧
    (s.hostPhase = .returned .haltRequested → move = .halt ∧ t.status = .halted) := by
  refine ⟨fun hp => ?_, fun hp => ?_, fun hp => ?_, fun hp => ?_⟩
  · cases move with
    | charge => rfl
    | _ => simp only [hostMove, hp] at h; cases h
  · refine ⟨?_, ?_, ?_⟩ <;> rintro rfl <;> simp only [hostMove, hp] at h <;> cases h
  · cases move with
    | resume => simp only [hostMove, hp] at h; cases h; exact ⟨rfl, rfl⟩
    | _ => simp only [hostMove, hp] at h; cases h
  · cases move with
    | halt => simp only [hostMove, hp] at h; cases h; exact ⟨rfl, rfl⟩
    | _ => simp only [hostMove, hp] at h; cases h

end Sys2Proof.Machine
end

section
/-! SUPPORT. Why a step leaves the status it leaves (60_exceptions.md R201, R210, R211; 40_control.md R130). -/

namespace Sys2Proof.Machine

variable {s t : State}

/-- What an instruction does to the status: TRAP panics, ECALLI suspends, every other one keeps it. -/
theorem exec_status {i : Instr} (h : exec i s = .next t) :
    (i = .trap ∧ t.status = .panicked) ∨ (∃ imm, i = .ecalli imm ∧ t.status = .awaitingHostCall imm) ∨
    (i ≠ .trap ∧ (¬∃ imm, i = .ecalli imm) ∧ t.status = s.status) := by
  by_cases htrap : i = .trap
  · subst htrap; cases h
    exact .inl ⟨rfl, rfl⟩
  by_cases hecalli : ∃ imm, i = .ecalli imm
  · obtain ⟨imm, rfl⟩ := hecalli
    cases h
    exact .inr (.inl ⟨imm, rfl, rfl⟩)
  rcases exec_cases i s with ⟨rD, z, he⟩ | ⟨hi, _⟩ | ⟨imm, hi, _⟩
  · cases he.symm.trans h
    exact .inr (.inr ⟨htrap, hecalli, rfl⟩)
  · exact absurd hi htrap
  · exact absurd ⟨imm, hi⟩ hecalli

/-- The causes of each status after a step from `s` to `t`. -/
inductive StatusCause (s t : State) : Status → Prop where
  | unpaid : s.status = .running → s.gas.toNat < s.cost → StatusCause s t .outOfGas
  | trapped : s.status = .running → s.decoded.op = .trap → s.cost ≤ s.gas.toNat → StatusCause s t .panicked
  | called {k} : s.status = .running → s.decoded.instr = .ecalli k → s.cost ≤ s.gas.toNat →
      StatusCause s t (.awaitingHostCall k)
  | retired : s.status = .running → s.decoded.op ≠ .trap → s.decoded.op ≠ .ecalli → s.cost ≤ s.gas.toNat →
      StatusCause s t .running
  | callUnpaid {k d} : s.status = .awaitingHostCall k → hostDescriptor s.params k = some d →
      s.gas.toNat < hostCost d s.regs → s.hostPhase = .pending → s.hostMoves = .charge :: t.hostMoves →
      StatusCause s t .outOfGas
  | stillSuspended {k} : s.status = .awaitingHostCall k → StatusCause s t (.awaitingHostCall k)
  | resumed : s.Suspended → s.hostPhase = .returned .normal → s.hostMoves = .resume :: t.hostMoves →
      StatusCause s t .running
  | halted : s.Suspended → s.hostPhase = .returned .haltRequested → s.hostMoves = .halt :: t.hostMoves →
      StatusCause s t .halted

/-- A paid instruction is the cause of the status it leaves. -/
theorem statusCause_of_exec {g : BitVec 64} (hs : s.status = .running) (hle : s.cost ≤ s.gas.toNat)
    (h : exec s.decoded.instr { s with gas := g } = .next t) : StatusCause s t t.status := by
  obtain ⟨htrap, hecalli⟩ := instr_control s.decoded
  rcases exec_status h with ⟨hi, hst⟩ | ⟨imm, hi, hst⟩ | ⟨hnt, hne, hst⟩
  · exact hst ▸ .trapped hs (htrap.mp hi) hle
  · exact hst ▸ .called hs hi hle
  · exact (hst.trans hs) ▸ .retired hs (mt htrap.mpr hnt) (mt hecalli.mpr hne) hle

/-- The host's move is the cause of the status it leaves. -/
theorem statusCause_of_hostMove {k : BitVec 32} {d : HostDescriptor} {move : HostMove} {rest : List HostMove}
    (hs : s.status = .awaitingHostCall k) (hd : hostDescriptor s.params k = some d) (hm : s.hostMoves = move :: rest)
    (h : hostMove d { s with hostMoves := rest } move = .next t) : StatusCause s t t.status := by
  obtain ⟨_, _, _, hrest, hcause, _⟩ := hostMove_next h
  obtain rfl : t.hostMoves = rest := hrest
  cases hcause with
  | keeps _ hst | spends _ _ hst => exact (hst.trans hs) ▸ .stillSuspended hs
  | resumes hp _ hst => exact hst ▸ .resumed ⟨k, hs⟩ hp hm
  | halts hp _ hst => exact hst ▸ .halted ⟨k, hs⟩ hp hm
  | charges hp _ hst =>
    rcases hst with ⟨_, hst⟩ | ⟨hlt, hst⟩
    · exact (hst.trans hs) ▸ .stillSuspended hs
    · exact hst ▸ .callUnpaid hs hd hlt hp hm

/-- Every step leaves a status for one of its causes. -/
theorem step_statusCause (h : step s = .next t) : StatusCause s t t.status := by
  rcases step_cases h with ⟨hs, hlt, rfl⟩ | ⟨hs, hle, hexec⟩ | ⟨k, d, move, rest, hs, hd, hm, hmove⟩
  · exact .unpaid hs hlt
  · exact statusCause_of_exec hs hle hexec
  · exact statusCause_of_hostMove hs hd hm hmove

end Sys2Proof.Machine
end

section
/-! SUPPORT. One step among many instances (60_exceptions.md R219). -/

namespace Sys2Proof.Machine

/-- Stepping instance `n` puts its next state in its place, or does nothing where there is no instance `n`. -/
theorem stepInstance_next {n : Nat} {before after : List State} (h : stepInstance n before = .next after) :
    after = before ∨ ∃ s t, before[n]? = some s ∧ step s = .next t ∧ after = before.set n t := by
  unfold stepInstance at h
  split at h
  · cases h; exact .inl rfl
  · rename_i s hs
    split at h
    · rename_i t ht
      cases h; exact .inr ⟨s, t, hs, ht, rfl⟩
    · cases h
    · cases h

end Sys2Proof.Machine
end

section
/-! The obligations of 60_exceptions.md, settled. -/

namespace Sys2Proof.Machine

/-- Settles O47: each part reads off the causes of one status. -/
theorem eventsHaveOnlyTheirCauses : Obligations.EventsHaveOnlyTheirCauses := by
  intro s t h
  have hcause := step_statusCause h
  refine ⟨fun e => ?_, fun e => ?_, fun k e => ?_, fun e => ?_, fun e => ?_⟩ <;> rw [e] at hcause
  · cases hcause with
    | trapped hs hop hle => exact ⟨hs, hop, hle⟩
  · cases hcause with
    | unpaid hs hlt => exact .inl ⟨hs, hlt⟩
    | callUnpaid hs hd hlt hp hm => exact .inr ⟨_, _, hs, hd, hlt, hp, hm⟩
  · cases hcause with
    | called hs hi hle => exact .inl ⟨hs, hi, hle⟩
    | stillSuspended hs => exact .inr hs
  · cases hcause with
    | halted hs hp hm => exact ⟨hs, hp, hm⟩
  · cases hcause with
    | retired hs hnt hne hle => exact .inl ⟨hs, hnt, hne, hle⟩
    | resumed hs hp hm => exact .inr ⟨hs, hp, hm⟩

/-- Settles O58: a suspended instance steps by a host move, whose phase admits it; each handler move is one update of the
state. -/
theorem hostKeepsPcAndProgram : Obligations.HostKeepsPcAndProgram := by
  refine ⟨fun s t hs h => ?_, fun s addr bytes rest h => ?_, fun s addr bytes rest h => ?_, fun s addr len rest h => ?_,
    fun s amount rest h => ?_, fun s verdict rest h => ?_, fun s rules rest h => ?_⟩
  · obtain ⟨d, move, hm, hmove⟩ := step_suspended hs h
    obtain ⟨hparams, hprogram, hpc, _⟩ := hostMove_next hmove
    obtain ⟨hgas, _⟩ := gasNeverIncreases s t h
    obtain ⟨hpending, hhandling, hnormal, hhalt⟩ := hostMove_inTurn hmove
    have hhead : ∀ move', s.hostMoves = move' :: t.hostMoves ↔ move = move' := fun move' => by simp [hm]
    simp only [ne_eq, hhead]
    exact ⟨hpc, hprogram, hparams, hgas, hpending, hhandling, hnormal, hhalt⟩
  · rcases State.store_cases { s with hostMoves := rest } addr bytes with ⟨he, _⟩ | ⟨he, _⟩
    · exact ⟨_, (step_store h).trans (hostStore_of_none he), writesMemoryOnly_memory fun _ _ => rfl,
        fun hrules hheld => absurd (he.symm.trans (State.store_of_storable hrules hheld)) nofun, fun _ _ => rfl⟩
    · exact ⟨_, (step_store h).trans (hostStore_of_some he),
        writesMemoryOnly_memory fun _ => Memory.read_putAll_outside _, fun _ _ _ => Memory.read_putAll_inside _ _,
        fun hfault => absurd (he.symm.trans (State.store_of_faulting hfault)) nofun⟩
  · exact ⟨_, step_mapBytes h, writesMemoryOnly_memory fun _ => Memory.read_putAll_outside _,
      fun _ => Memory.read_putAll_inside _ _⟩
  · refine ⟨_, step_unmapBytes h, writesMemoryOnly_memory fun a ha => ?_, fun i hi => ?_⟩
    · rw [Memory.read_remove, if_neg ha]
    · exact (Memory.read_remove ..).trans (if_pos (by omega))
  · have hphase : s.hostPhase = .handling := h.1
    rcases hostSpend_cases amount { s with hostMoves := rest } with ⟨hle, he⟩ | ⟨hlt, he⟩
    · exact ⟨_, (step_spendGas h).trans he, ⟨rfl, rfl, rfl, rfl, rfl⟩, keepsRegisters_of_regs_eq rfl, rfl, rfl,
        fun _ => ⟨toNat_gas_sub hle, hphase⟩, fun hlt => absurd hlt hle.not_gt⟩
    · exact ⟨_, (step_spendGas h).trans he, ⟨rfl, rfl, rfl, rfl, rfl⟩, keepsRegisters_of_regs_eq rfl, rfl, rfl,
        fun hle => absurd hlt hle.not_gt, fun _ => ⟨rfl, rfl⟩⟩
  · exact ⟨_, step_handlerReturns h, ⟨rfl, rfl, rfl, rfl, rfl⟩, keepsRegisters_of_regs_eq rfl, rfl, rfl, rfl, rfl⟩
  · exact ⟨_, step_setFaults h, ⟨rfl, rfl, rfl, rfl, rfl⟩, keepsRegisters_of_regs_eq rfl, rfl, rfl, rfl, rfl⟩

/-- Settles O59: the result is the load's answer, or empty where the load faults. -/
theorem haltResultIsReadOrEmpty : Obligations.HaltResultIsReadOrEmpty := by
  intro s ra rl hregs
  refine ⟨fun hs => ⟨_, haltResult_of_halted hregs hs, fun hrules hheld => ?_, fun hfault => ?_⟩,
    haltResult_of_not_halted, rfl, faultsOn_iff⟩
  · obtain ⟨bytes, hbytes⟩ := Option.isSome_iff_exists.mp (Memory.load_isSome_iff.mpr hheld)
    obtain ⟨hlen, hread⟩ := Memory.load_eq_some.mp hbytes
    rw [State.load_eq_some.mpr ⟨hrules, hlen, hread⟩]
    exact ⟨hlen, fun i hi => (hread i hi).symm⟩
  · rw [State.load_eq_none_iff.mpr hfault, Option.getD_none]

/-- Settles O60: the list changes at `n` alone, and there by a step, which keeps the program. -/
theorem instancesShareOnlyTheProgram : Obligations.InstancesShareOnlyTheProgram := by
  intro n before after h
  rcases stepInstance_next h with rfl | ⟨s, t, hs, hstep, rfl⟩
  · exact ⟨rfl, fun _ _ => rfl, fun _ hp => hp⟩
  · refine ⟨List.length_set, fun j hj => List.getElem?_set_ne hj.symm, fun p hp u hu => ?_⟩
    rcases List.mem_or_eq_of_mem_set hu with hu | rfl
    · exact hp u hu
    · obtain ⟨hprogram, _⟩ := step_keeps_program_params hstep
      exact hprogram.trans (hp s (List.mem_of_getElem? hs))

/-- Settles O56: the two cases of the charge. -/
theorem hostCallIsChargedUpFront : Obligations.HostCallIsChargedUpFront := by
  intro s k d rest hs hp hd hm
  have hstep : step s = hostCharge d { s with hostMoves := rest } := by
    rw [step_of_hostMoves hs hd hm]
    simp only [hostMove, hp]
  rcases State.charge_cases { s with hostMoves := rest } (hostCost d s.regs) _ with ⟨hle, he⟩ | ⟨hlt, he⟩
  · exact ⟨_, hstep.trans he, rfl, keepsRegisters_of_regs_eq rfl, rfl, fun _ => rfl, rfl,
      fun hlt => absurd hlt hle.not_gt, fun _ => ⟨hs, rfl, toNat_gas_sub hle⟩⟩
  · exact ⟨_, hstep.trans he, rfl, keepsRegisters_of_regs_eq rfl, rfl, fun _ => rfl, rfl,
      fun _ => ⟨rfl, rfl⟩, fun hle => absurd hlt hle.not_gt⟩

/-- Settles O57: the resume and the halt change the status and the host's progress; no descriptor, no move. -/
theorem hostResumesHaltsOrIsStuck : Obligations.HostResumesHaltsOrIsStuck := by
  intro s k hs
  refine ⟨fun d rest hd => ⟨fun hp hm => ?_, fun hp hm => ?_⟩, fun hunknown => ?_⟩
  · have hstep : step s = hostResume { s with hostMoves := rest } := by
      rw [step_of_hostMoves hs hd hm]
      simp only [hostMove, hp]
    exact ⟨_, hstep, rfl, rfl, rfl, keepsRegisters_of_regs_eq rfl, rfl, rfl, rfl⟩
  · have hstep : step s = hostHalt { s with hostMoves := rest } := by
      rw [step_of_hostMoves hs hd hm]
      simp only [hostMove, hp]
    exact ⟨_, hstep, rfl, rfl, rfl, keepsRegisters_of_regs_eq rfl, rfl, rfl, rfl⟩
  · exact (step_of_awaiting hs).trans (hostTurn_unknown hunknown)

end Sys2Proof.Machine
end

section
/-! What the image decoder gives and what launch makes of it (30_encoding.md R74; 70_reset_and_hazards.md R230, R231), and
the obligation of 70_reset_and_hazards.md, settled. -/

namespace Sys2Proof

/-- An accepted image's program has one mask bit per code index and code shorter than `2^32` bytes (R73, R74). -/
theorem decodeImage_wellFormed {codec : VarintCodec} {image : List Byte} {p : Program}
    (h : decodeImage codec image = .ok p) : p.WellFormed := by
  obtain ⟨n, z, _, L, body, _, _, _, hlen, hsections⟩ := decodeImage_eq_ok_iff.mp h
  obtain ⟨hbody, rfl⟩ := readSections_eq_ok_iff.mp hsections
  have hcode := sectionsProgram_code_length hbody
  have hmask : (sectionsProgram n z.toNat L body).mask.length = L := maskBits_length L _
  exact ⟨hmask.trans hcode.symm, hcode.trans_lt hlen⟩

namespace Machine

variable {a : LaunchArgs}

theorem launch_of_decodeImage_ok {p : Program} (h : decodeImage a.codec a.image = .ok p) :
    launch a = .ok (launchProgram a p) := by
  rw [launch, h]

theorem launch_of_decodeImage_error {e : DecodeFault} (h : decodeImage a.codec a.image = .error e) :
    launch a = .error e := by
  rw [launch, h]

/-- Settles O53: an accepted image gives the launch state of its program, which is well-formed. -/
theorem launchHoldsWhatTheHostSupplies : Obligations.LaunchHoldsWhatTheHostSupplies :=
  fun a => ⟨fun p h => ⟨launchProgram a p, launch_of_decodeImage_ok h, rfl, rfl, rfl, rfl, rfl, rfl, rfl, rfl, rfl, rfl,
    fun hmap hmemory => ⟨hmap, decodeImage_wellFormed h, hmemory⟩⟩, fun _ => launch_of_decodeImage_error⟩

end Machine

end Sys2Proof
end
